-- ==== Sys2Proof/Word.lean ====
section
/-! DEFINITION. The widths of the block's data and the two fixed-size groups of like things: sixteen
(the state, a ROM line, the matrix) and four (a row or a column). Types only; what is done with them
stands in Machine/Operands.lean. -/

namespace Sys2Proof

/-- A byte: unsigned, bit 0 the least significant (R6, R26). -/
abbrev Byte := BitVec 8

/-- Half a byte: `x = b[7:4]` or `y = b[3:0]` (R56). -/
abbrev Nibble := BitVec 4

/-- A host command word `CW[8:0]` (R37). -/
abbrev CmdWord := BitVec 9

/-- A 2-bit code: the micro-operation code (R42) or the coefficient code (R43). -/
abbrev Code2 := BitVec 2

/-- Sixteen like things, element `i` named `b<i>`. "Size is always exactly 16" (R10). -/
structure Block (α : Type) where
  b0 : α
  b1 : α
  b2 : α
  b3 : α
  b4 : α
  b5 : α
  b6 : α
  b7 : α
  b8 : α
  b9 : α
  b10 : α
  b11 : α
  b12 : α
  b13 : α
  b14 : α
  b15 : α
deriving DecidableEq, Repr

/-- Four like things in order: one row or one column of the matrix (R66, R67). -/
structure Quad (α : Type) where
  q0 : α
  q1 : α
  q2 : α
  q3 : α
deriving DecidableEq, Repr

end Sys2Proof
end

