-- ==== Sys2Proof/Config.lean ====
section
/-! DEFINITION. The parameters of the block (R5): the fixed ones as numbers, the two that are
configuration (SBOX_ROM, MIXMATRIX) as a record that every function depending on them takes. Their
default contents stand in Machine/Tables.lean. -/

namespace Sys2Proof

namespace Config

/-- `NB`: bytes in the state (R5). -/
def nb : Nat := 16

/-- `NR`: rounds run by the driver (R5, D16). -/
def nr : Nat := 10

/-- `MIXLAST`: MixColumns is applied in round `i` only when `i < 9` (R5, R73). -/
def mixLast : Nat := 9

/-- `REDC`: the reduction constant of doubling (R5, R49). -/
def redc : Byte := 0x1B

end Config

/-- A MixMatrix coefficient: 1, 2 or 3 and nothing else, as R53 asks ("a three-valued type"). -/
inductive Coef where
  | one
  | two
  | three
deriving DecidableEq, Repr

/-- The configuration parameters (R5, U11): contents of the two ROMs. -/
structure Params where
  /-- `SBOX_ROM` in address order: line `a / 16` of sixteen cells, cell `a % 16` of it (R59). -/
  sboxRom : Block (Block Byte)
  /-- `MIXMATRIX`, contents of the `MIX` ROM, cell `4*i + k` (R24, R71). -/
  mixMatrix : Block Coef
deriving DecidableEq, Repr

end Sys2Proof
end

