-- ==== Sys2Proof/Syntax.lean ====
section
/-! DEFINITION. The instruction set, one constructor per row of spec/opcode_table.json, and the
assembler lines of R46 and R47. -/

namespace Sys2Proof

/-- One constructor per row of the opcode table. The table holds three code spaces: host commands
(`CW`), micro-operations (`UOP`) and multiplier operations (`COEF`). -/
inductive Instr where
  /-- `LDB d`: load the next input byte (R38, R77). -/
  | ldb (d : Byte)
  /-- `RUN`: end of the input, start the rounds (R39, R78). -/
  | run
  /-- Micro-op `SUB`: SubBytes on the whole state (R80). -/
  | sub
  /-- Micro-op `SHR`: ShiftRows on the whole state (R81). -/
  | shr
  /-- Micro-op `MIX`: MixColumns on the whole state (R82). -/
  | mix
  /-- Multiplier operation, coefficient 1, operand `v` (R50). -/
  | gfmul1 (v : Byte)
  /-- Multiplier operation, coefficient 2, operand `v` (R51). -/
  | gfmul2 (v : Byte)
  /-- Multiplier operation, coefficient 3, operand `v` (R52). -/
  | gfmul3 (v : Byte)
deriving DecidableEq, Repr

/-- The operand of an assembler `LDB` line: a number or one character in quotes (R46). -/
inductive AsmByte where
  | number (n : Nat)
  | char (c : Char)
deriving DecidableEq, Repr

/-- One line of a command program: the two commands, the test-bench directive and the three
pseudo-instructions (R46, R47). A text is the list of its characters. -/
inductive AsmLine where
  | ldb (b : AsmByte)
  | run
  | reset
  | load (text : List Char)
  | loadx (bytes : List Nat)
  | encrypt (text : List Char)
deriving DecidableEq, Repr

end Sys2Proof
end

