-- ==== Sys2Proof/WellFormed.lean ====
section
/-! DEFINITION. What a term must satisfy beyond its type: instructions (nothing), assembler lines
(byte range and ASCII, R46), and a MixMatrix given as raw 2-bit codes (R53, R71). -/

namespace Sys2Proof

/-- Every typed instruction is well formed: all 256 operand values are legal (R38) and no other field
exists (R41). One arm per constructor, so that a new instruction must say its own check. -/
def Instr.wellFormed : Instr → Bool
  | .ldb _ => true
  | .run => true
  | .sub => true
  | .shr => true
  | .mix => true
  | .gfmul1 _ => true
  | .gfmul2 _ => true
  | .gfmul3 _ => true

/-- `LDB <byte>`: 0..255, or one ASCII character (R46). -/
def AsmByte.wellFormed : AsmByte → Bool
  | .number n => decide (n < 256)
  | .char c => decide (c.val.toNat < 128)

/-- An assembler line is well formed when each byte it names is one (R46, R47). -/
def AsmLine.wellFormed : AsmLine → Bool
  | .ldb b => b.wellFormed
  | .run => true
  | .reset => true
  | .load _ => true
  | .loadx bytes => bytes.all fun n => decide (n < 256)
  | .encrypt _ => true

/-- The coefficient a 2-bit code stands for; code `00` is none (R43). -/
def Coef.ofCode? (c : Code2) : Option Coef :=
  match c.toNat with
  | 1 => some .one
  | 2 => some .two
  | 3 => some .three
  | _ => none

/-- "A model that takes another value must first check that all 16 entries are in 1, 2, 3" (R71): a
row-by-row list of sixteen raw codes passes when none is `00`. -/
def mixCodesWellFormed (codes : List Code2) : Bool :=
  decide (codes.length = 16) && codes.all fun c => (Coef.ofCode? c).isSome

end Sys2Proof
end

