-- ==== Sys2Proof/Decode.lean ====
section
/-! DEFINITION. The three code spaces (30_encoding.md), their decoder, total and rejecting by name, and
the encoder. -/

namespace Sys2Proof

/-- A code as the hardware presents it, with the space it belongs to: "the match and mask of rows with
different formats are not comparable" (30_encoding.md). The multiplier's operand byte travels beside
its code, on wires of its own. -/
inductive CodeWord where
  /-- A host command word (R37). -/
  | cw (w : CmdWord)
  /-- The micro-op code, the value of `PH` (R42). -/
  | uop (p : Code2)
  /-- A coefficient code and the operand byte at the multiplier (R43). -/
  | coef (c : Code2) (v : Byte)
deriving DecidableEq, Repr

/-- Why a code has no instruction. -/
inductive DecodeError where
  /-- A reserved command word, `0x101..0x1FF` (R40). -/
  | reservedCommand (w : CmdWord)
  /-- Micro-op code `11` (R42). -/
  | noMicroOp
  /-- Coefficient code `00` (R43). -/
  | noCoefficient
deriving DecidableEq, Repr

/-- Decoding a command word (R44): bit 8 clear is `LDB` with the low byte; else a zero low byte is
`RUN`; else reserved. -/
def decodeCommand (w : CmdWord) : Except DecodeError Instr :=
  if w.getLsbD 8 = false then .ok (.ldb (w.extractLsb' 0 8))
  else if w.extractLsb' 0 8 = 0 then .ok .run
  else .error (.reservedCommand w)

/-- The micro-op a value of `PH` selects (R42). -/
def decodeMicroOp (p : Code2) : Except DecodeError Instr :=
  match p.toNat with
  | 0 => .ok .sub
  | 1 => .ok .shr
  | 2 => .ok .mix
  | _ => .error .noMicroOp

/-- The multiplier operation a coefficient code selects (R43). -/
def decodeCoef (c : Code2) (v : Byte) : Except DecodeError Instr :=
  match Coef.ofCode? c with
  | some .one => .ok (.gfmul1 v)
  | some .two => .ok (.gfmul2 v)
  | some .three => .ok (.gfmul3 v)
  | none => .error .noCoefficient

/-- The whole decoder: "the decode does not depend on any state" (R44). -/
def decode : CodeWord → Except DecodeError Instr
  | .cw w => decodeCommand w
  | .uop p => decodeMicroOp p
  | .coef c v => decodeCoef c v

/-- The code of an instruction, from the encoding tables of R38, R39, R42 and R43. -/
def encode : Instr → CodeWord
  | .ldb d => .cw (0#1 ++ d)
  | .run => .cw 0x100
  | .sub => .uop 0b00
  | .shr => .uop 0b01
  | .mix => .uop 0b10
  | .gfmul1 v => .coef 0b01 v
  | .gfmul2 v => .coef 0b10 v
  | .gfmul3 v => .coef 0b11 v

/-- The code in a table word: rows of one byte or less are 2-bit codes, longer rows are command words.
A 2-bit code with a micro-op is read as the micro-op; code `11`, which is no micro-op, is read as the
coefficient code with operand bits zero (DESIGN CHOICE, log entry 9: the table does not tell the two
2-bit spaces apart by their bits). A set bit above the code makes it none. -/
def tableCode (nbits w : Nat) : Option CodeWord :=
  if nbits ≤ 8 then
    if w < 3 then some (.uop (BitVec.ofNat 2 w))
    else if w = 3 then some (.coef 0b11 0)
    else none
  else if w < 512 then some (.cw (BitVec.ofNat 9 w))
  else none

/-- What the decoder reads from a table word. -/
def decodeTableWord (nbits w : Nat) : Option Instr :=
  match tableCode nbits w with
  | some c =>
    match decode c with
    | .ok i => some i
    | .error _ => none
  | none => none

end Sys2Proof
end

