-- ==== Sys2Proof/Machine/Tables.lean ====
section
/-! DEFINITION. The default contents of the two ROMs. -/

namespace Sys2Proof.Machine

/-- `SBOX_ROM`, default: the standard AES S-box stored column by column, line `y`, cell `x` (R59).
PRESUMED (G1, D1; log entry 5), unsafe: the source prints two of the 256 values and no layout. -/
def sboxRom : Block (Block Byte) where
  b0  := ⟨0x63, 0xCA, 0xB7, 0x04, 0x09, 0x53, 0xD0, 0x51, 0xCD, 0x60, 0xE0, 0xE7, 0xBA, 0x70, 0xE1, 0x8C⟩
  b1  := ⟨0x7C, 0x82, 0xFD, 0xC7, 0x83, 0xD1, 0xEF, 0xA3, 0x0C, 0x81, 0x32, 0xC8, 0x78, 0x3E, 0xF8, 0xA1⟩
  b2  := ⟨0x77, 0xC9, 0x93, 0x23, 0x2C, 0x00, 0xAA, 0x40, 0x13, 0x4F, 0x3A, 0x37, 0x25, 0xB5, 0x98, 0x89⟩
  b3  := ⟨0x7B, 0x7D, 0x26, 0xC3, 0x1A, 0xED, 0xFB, 0x8F, 0xEC, 0xDC, 0x0A, 0x6D, 0x2E, 0x66, 0x11, 0x0D⟩
  b4  := ⟨0xF2, 0xFA, 0x36, 0x18, 0x1B, 0x20, 0x43, 0x92, 0x5F, 0x22, 0x49, 0x8D, 0x1C, 0x48, 0x69, 0xBF⟩
  b5  := ⟨0x6B, 0x59, 0x3F, 0x96, 0x6E, 0xFC, 0x4D, 0x9D, 0x97, 0x2A, 0x06, 0xD5, 0xA6, 0x03, 0xD9, 0xE6⟩
  b6  := ⟨0x6F, 0x47, 0xF7, 0x05, 0x5A, 0xB1, 0x33, 0x38, 0x44, 0x90, 0x24, 0x4E, 0xB4, 0xF6, 0x8E, 0x42⟩
  b7  := ⟨0xC5, 0xF0, 0xCC, 0x9A, 0xA0, 0x5B, 0x85, 0xF5, 0x17, 0x88, 0x5C, 0xA9, 0xC6, 0x0E, 0x94, 0x68⟩
  b8  := ⟨0x30, 0xAD, 0x34, 0x07, 0x52, 0x6A, 0x45, 0xBC, 0xC4, 0x46, 0xC2, 0x6C, 0xE8, 0x61, 0x9B, 0x41⟩
  b9  := ⟨0x01, 0xD4, 0xA5, 0x12, 0x3B, 0xCB, 0xF9, 0xB6, 0xA7, 0xEE, 0xD3, 0x56, 0xDD, 0x35, 0x1E, 0x99⟩
  b10 := ⟨0x67, 0xA2, 0xE5, 0x80, 0xD6, 0xBE, 0x02, 0xDA, 0x7E, 0xB8, 0xAC, 0xF4, 0x74, 0x57, 0x87, 0x2D⟩
  b11 := ⟨0x2B, 0xAF, 0xF1, 0xE2, 0xB3, 0x39, 0x7F, 0x21, 0x3D, 0x14, 0x62, 0xEA, 0x1F, 0xB9, 0xE9, 0x0F⟩
  b12 := ⟨0xFE, 0x9C, 0x71, 0xEB, 0x29, 0x4A, 0x50, 0x10, 0x64, 0xDE, 0x91, 0x65, 0x4B, 0x86, 0xCE, 0xB0⟩
  b13 := ⟨0xD7, 0xA4, 0xD8, 0x27, 0xE3, 0x4C, 0x3C, 0xFF, 0x5D, 0x5E, 0x95, 0x7A, 0xBD, 0xC1, 0x55, 0x54⟩
  b14 := ⟨0xAB, 0x72, 0x31, 0xB2, 0x2F, 0x58, 0x9F, 0xF3, 0x19, 0x0B, 0xE4, 0xAE, 0x8B, 0x1D, 0x28, 0xBB⟩
  b15 := ⟨0x76, 0xC0, 0x15, 0x75, 0x84, 0xCF, 0xA8, 0xD2, 0x73, 0xDB, 0x79, 0x08, 0x8A, 0x9E, 0xDF, 0x16⟩

/-- `MIXMATRIX`, default: the standard AES matrix, row by row (R71).
PRESUMED (G2, D2; log entry 6), unsafe: the source does not print the entries. -/
def mixMatrix : Block Coef :=
  ⟨.two,   .three, .one,   .one,
   .one,   .two,   .three, .one,
   .one,   .one,   .two,   .three,
   .three, .one,   .one,   .two⟩

/-- The parameter values this hardware takes (R5). -/
def defaultParams : Params := { sboxRom := sboxRom, mixMatrix := mixMatrix }

end Sys2Proof.Machine
end

