-- ==== Sys2Proof/Machine/State.lean ====
section
/-! DEFINITION. The machine's state, its reset value, and the reasons a step can stop. -/

namespace Sys2Proof.Machine

/-- `FSM`, the controller's mode, 2 bits, codes 0 to 3 in this order (R14). -/
inductive Fsm where
  | load
  | busy
  | done
  | fault
deriving DecidableEq, Repr

/-- `ERR`, the cause of the fault, 2 bits, codes 0 to 3 in this order (R15). -/
inductive Err where
  /-- 0 = `NONE`. -/
  | none
  /-- 1 = `LENGTH`: the input was not exactly 16 bytes. -/
  | length
  /-- 2 = `ILLCMD`: a reserved command word was accepted. -/
  | illcmd
  /-- 3, never produced; a state that holds it has no step (U4). -/
  | unused
deriving DecidableEq, Repr

/-- An emission `(r, S)`: round index and the sixteen bytes of `ST` in working order (R18). -/
structure Emission where
  round : BitVec 4
  bytes : Block (Option Byte)
deriving DecidableEq, Repr

/-- What the host drives at one clock edge: the levels of its three pins (R87, R88). The list of these in
`State` is the model's own way to hold the outside world (DESIGN CHOICE, log entry 2): one entry is one
edge. A word that is not accepted at its edge leaves no trace in the block (R76); a host that holds it
drives it again at the next edge, and one that withdraws it, or resets the block instead, drives that. The
spec does not say which of these the host does, and the list can say each. -/
structure HostInput where
  /-- The levels at the edge. -/
  drive ::
  /-- `rst`. -/
  rst : Bool
  /-- `cmd_valid` with `cmd`; `none` is `cmd_valid = 0`. -/
  cmd : Option CmdWord
deriving DecidableEq, Repr

/-- The whole machine. -/
structure State where
  /-- `ST[0..15]` in working order; `none` is "no value", the spec's own state of a byte not written
  since reset (R10, R11; log entry 1). -/
  st : Block (Option Byte)
  /-- `RND`, the round index of `upc` (R12). -/
  rnd : BitVec 4
  /-- `PH`, the phase of `upc` (R12). -/
  ph : BitVec 2
  /-- `ICNT`, input bytes accepted since reset (R13). -/
  icnt : BitVec 5
  /-- `FSM` (R14). -/
  fsm : Fsm
  /-- `ERR` (R15). -/
  err : Err
  /-- `OUT`, the emissions made since reset, in order (R18). -/
  out : List Emission
  /-- The output strobe: `some r` is `out_valid = 1` with `out_round = r` in the period after the last
  step, `none` is `out_valid = 0` (R87); a later period without a step is no state of its own (DESIGN
  CHOICE, log entry 10). -/
  strobe : Option (BitVec 4)
  /-- What the host drives at the coming edges, one entry an edge, first one first; after the last entry
  it drives no pin (log entry 2). -/
  host : List HostInput
  /-- The multiplier's output as last seen when one of the three multiplier operations was run on the
  unit; the model's own field, written by no step and read by no rule (log entry 8). -/
  gfOut : Option Byte
  /-- `SBOX_ROM` and `MIXMATRIX`: arguments of the step relation that no step and no reset changes
  (R5, R19; log entry 7). -/
  params : Params
deriving DecidableEq, Repr

/-- The state after reset (R21). -/
def State.reset : State where
  st := ⟨none, none, none, none, none, none, none, none, none, none, none, none, none, none, none, none⟩
  rnd := 0
  ph := 0
  icnt := 0
  fsm := .load
  err := .none
  out := []
  strobe := none
  host := []
  gfOut := none
  params := defaultParams

/-- The model's named stops: the controller has no step (the spec's "stuck"). A fault of the HARDWARE
(`LENGTH`, `ILLCMD`) is no constructor here: it is a next state with `FSM = FAULT`. All are safe: the
model stops where the block would hold still. -/
inductive Fault where
  /-- Raised by a step in `LOAD` when the host drives no word and no reset (R76, R104). Safe. -/
  | awaitingCommand
  /-- Raised by a step in `DONE` when the host drives no word and no reset: "the controller has no step"
  (R84). Safe. -/
  | runComplete
  /-- Raised by a step in `FAULT` when the host drives no word and no reset (R97, R99). Safe. -/
  | runFaulted
  /-- Raised by `LDB`, `RUN` or a reserved word run outside `LOAD`, and by a step in `DONE` or `FAULT` when
  the host drives a word and no reset: it is never accepted before the next reset (R76, R109, U10: "stuck").
  Safe. -/
  | commandNotAccepted
deriving DecidableEq, Repr

/-- Reasons for which a step has no meaning. -/
inductive Refusal where
  /-- Raised by an arm of exec whose instruction has no meaning yet. Safe. -/
  | notModelled (mnemonic : String)
  /-- Raised by a step, or an instruction, from a combination of registers outside the table of R22 (U4:
  "refuse"). Safe. -/
  | unreachableState
  /-- Raised by SUB, SHR or MIX when `(FSM, PH)` does not select it: the sequence is hardwired (R79);
  no step of the machine reaches it (log entry 11). Safe. -/
  | microOpNotSelected
  /-- Raised by micro-op code `11` (R42, U4). Safe. -/
  | noMicroOp
  /-- Raised by coefficient code `00` at the multiplier (R53, U1: "refuse"). Safe. -/
  | undefinedCoefficient
deriving DecidableEq, Repr

/-- An outcome of this machine. -/
abbrev Result := Host.Outcome State Fault Refusal

end Sys2Proof.Machine
end

