-- ==== Sys2Proof/Machine/Operands.lean ====
section
/-! DEFINITION. Operand forms and addresses: indices of the state, rows and columns, the SBox address,
the two ROM reads and the coefficient code. -/

namespace Sys2Proof

/-- Element `i` of sixteen. -/
def Block.get {α : Type} (b : Block α) (i : Fin 16) : α :=
  match i.val with
  | 0 => b.b0
  | 1 => b.b1
  | 2 => b.b2
  | 3 => b.b3
  | 4 => b.b4
  | 5 => b.b5
  | 6 => b.b6
  | 7 => b.b7
  | 8 => b.b8
  | 9 => b.b9
  | 10 => b.b10
  | 11 => b.b11
  | 12 => b.b12
  | 13 => b.b13
  | 14 => b.b14
  | _ => b.b15

/-- The sixteen values of `f`, element 0 first. -/
def Block.ofFn {α : Type} (f : Fin 16 → α) : Block α :=
  ⟨f 0, f 1, f 2, f 3, f 4, f 5, f 6, f 7, f 8, f 9, f 10, f 11, f 12, f 13, f 14, f 15⟩

/-- `b` with `v` at index `i`. -/
def Block.set {α : Type} (b : Block α) (i : Fin 16) (v : α) : Block α :=
  Block.ofFn fun m => if m = i then v else b.get m

/-- `f` on every element. -/
def Block.map {α β : Type} (f : α → β) (b : Block α) : Block β :=
  Block.ofFn fun m => f (b.get m)

/-- The elements in order, element 0 first. -/
def Block.toList {α : Type} (b : Block α) : List α :=
  [b.b0, b.b1, b.b2, b.b3, b.b4, b.b5, b.b6, b.b7, b.b8, b.b9, b.b10, b.b11, b.b12, b.b13, b.b14, b.b15]

/-- Index `4*r + c`: row `r`, column `c` (R10, R62). -/
def cell (r c : Fin 4) : Fin 16 := ⟨4 * r.val + c.val, by omega⟩

/-- The row of index `m`: `m / 4`. -/
def rowOf (m : Fin 16) : Fin 4 := ⟨m.val / 4, by omega⟩

/-- The column of index `m`: `m % 4`. -/
def colOf (m : Fin 16) : Fin 4 := ⟨m.val % 4, by omega⟩

/-- The block whose index `4*i + j` holds `f i j`: the loops `for i in 0..4: for j in 0..4` of the
spec's pseudocode. -/
def Block.ofCells {α : Type} (f : Fin 4 → Fin 4 → α) : Block α :=
  Block.ofFn fun m => f (rowOf m) (colOf m)

/-- Element `k` of four. -/
def Quad.get {α : Type} (q : Quad α) (k : Fin 4) : α :=
  match k.val with
  | 0 => q.q0
  | 1 => q.q1
  | 2 => q.q2
  | _ => q.q3

/-- `f` on every element. -/
def Quad.map {α β : Type} (f : α → β) (q : Quad α) : Quad β := ⟨f q.q0, f q.q1, f q.q2, f q.q3⟩

/-- The four values, when each is there. -/
def Quad.all? {α : Type} (q : Quad (Option α)) : Option (Quad α) :=
  match q.q0, q.q1, q.q2, q.q3 with
  | some a, some b, some c, some d => some ⟨a, b, c, d⟩
  | _, _, _, _ => none

/-- `ROW(W, r)`: bytes `4r..4r+3` (R66). -/
def row {α : Type} (W : Block α) (r : Fin 4) : Quad α :=
  ⟨W.get (cell r 0), W.get (cell r 1), W.get (cell r 2), W.get (cell r 3)⟩

/-- `COL(W, j)`: bytes `j, 4+j, 8+j, 12+j` (R67). -/
def col {α : Type} (W : Block α) (j : Fin 4) : Quad α :=
  ⟨W.get (cell 0 j), W.get (cell 1 j), W.get (cell 2 j), W.get (cell 3 j)⟩

/-- `TPOS(n) = 4*(n % 4) + n/4`, where the `n`-th input byte goes (R65). -/
def tpos (n : Fin 16) : Fin 16 := ⟨4 * (n.val % 4) + n.val / 4, by omega⟩

/-- `x = b[7:4]`, the high nibble (R56). -/
def hiNibble (b : Byte) : Nibble := b.extractLsb' 4 4

/-- `y = b[3:0]`, the low nibble (R56). -/
def loNibble (b : Byte) : Nibble := b.extractLsb' 0 4

/-- A nibble as an index 0..15. -/
def nibbleIndex (x : Nibble) : Fin 16 := ⟨x.toNat, x.isLt⟩

/-- The SBox ROM address of an input byte, `16*y + x`: the byte with its nibbles exchanged (R57). -/
def romAddr (b : Byte) : Byte := loNibble b ++ hiNibble b

/-- `MemRead(SBOX, a, 1)` (R7, R23): cell `a`, line `a[7:4]`, position `a[3:0]`. -/
def memReadSbox (p : Params) (a : Byte) : Byte :=
  (p.sboxRom.get (nibbleIndex (hiNibble a))).get (nibbleIndex (loNibble a))

/-- `MemRead(MIX, a, 1)` (R7, R24). -/
def memReadMix (p : Params) (a : Fin 16) : Coef := p.mixMatrix.get a

/-- `MIXROW(i)`: cells `4*i .. 4*i+3` of the `MIX` ROM (R71). -/
def mixRow (p : Params) (i : Fin 4) : Quad Coef :=
  ⟨memReadMix p (cell i 0), memReadMix p (cell i 1), memReadMix p (cell i 2), memReadMix p (cell i 3)⟩

/-- The 2-bit code of a coefficient: "the coefficient as a binary number" (R43). -/
def Coef.code : Coef → Code2
  | .one => 0b01
  | .two => 0b10
  | .three => 0b11

/-- A MixMatrix from sixteen 2-bit codes, row by row; none when a code is `00` or the length is wrong:
"a model that takes another value must first check that all 16 entries are in {1,2,3}" (R71, R53). -/
def matrixOfCodes (codes : List Code2) : Option (Block Coef) :=
  match codes.map Coef.ofCode? with
  | [some a0, some a1, some a2, some a3, some a4, some a5, some a6, some a7,
     some a8, some a9, some a10, some a11, some a12, some a13, some a14, some a15] =>
    some ⟨a0, a1, a2, a3, a4, a5, a6, a7, a8, a9, a10, a11, a12, a13, a14, a15⟩
  | _ => none

end Sys2Proof
end

