-- ==== Sys2Proof/Machine/Flags.lean ====
section
/-! DEFINITION. Flags. The block stores none (R17); the one flag the source names is a wire inside
XTIME. -/

namespace Sys2Proof

/-- `LARGE(v) = v[7]`, the "large" flag (R48). -/
def large (v : Byte) : Bool := v.getLsbD 7

end Sys2Proof
end

