-- ==== Sys2Proof/Machine/Units.lean ====
section
/-! DEFINITION. The combinational units as pure functions: multiplier (40_gf.md), SBox (41_sbox.md),
converter (42_statematrix.md), the round operations and the round function (43_round.md). Each takes
the ROM contents it depends on. -/

namespace Sys2Proof

/-- `XTIME(v)`: shift left in 9 bits, reduce when `v` is large, keep the low 8 bits (R49). -/
def xtime (v : Byte) : Byte :=
  let t : BitVec 9 := v.setWidth 9 <<< 1
  let t := if large v then t ^^^ Config.redc.setWidth 9 else t
  t.setWidth 8

/-- `GFMUL(1, v)` (R50). -/
def gfmul1 (v : Byte) : Byte := v

/-- `GFMUL(2, v)` (R51). -/
def gfmul2 (v : Byte) : Byte := xtime v

/-- `GFMUL(3, v)` (R52). -/
def gfmul3 (v : Byte) : Byte := v ^^^ xtime v

/-- `GFMUL(c, v)`, defined for the three coefficients only (R50 to R53). -/
def gfmul (c : Coef) (v : Byte) : Byte :=
  match c with
  | .one => gfmul1 v
  | .two => gfmul2 v
  | .three => gfmul3 v

/-- `DOT(row, col)`: the XOR of the four products, position by position (R54). -/
def dot (r : Quad Coef) (c : Quad Byte) : Byte :=
  0x00 ^^^ gfmul r.q0 c.q0 ^^^ gfmul r.q1 c.q1 ^^^ gfmul r.q2 c.q2 ^^^ gfmul r.q3 c.q3

/-- `SUB(b)`: the ROM cell at the exchanged-nibble address (R60). -/
def subByte (p : Params) (b : Byte) : Byte := memReadSbox p (romAddr b)

/-- `TOCM(in)`: `out[4*i + j] = in[4*j + i]` (R63). -/
def toCM {α : Type} (inp : Block α) : Block α := Block.ofCells fun i j => inp.get (cell j i)

/-- `SUBBYTES(W)` (R69). -/
def subBytes (p : Params) (W : Block Byte) : Block Byte := W.map (subByte p)

/-- `SHIFTROWS(W)`: `N[4*r + j] = W[4*r + ((j + r) mod 4)]` (R70). -/
def shiftRows {α : Type} (W : Block α) : Block α :=
  Block.ofCells fun r j => W.get (cell r ⟨(j.val + r.val) % 4, by omega⟩)

/-- `MIXCOLUMNS(W)`: `N[4*i + j] = DOT(MIXROW(i), COL(W, j))` (R72). -/
def mixColumns (p : Params) (W : Block Byte) : Block Byte :=
  Block.ofCells fun i j => dot (mixRow p i) (col W j)

/-- `ROUND(i, W)` for a round index 0..9 (R73). -/
def round (p : Params) (i : Fin 10) (W : Block Byte) : Block Byte :=
  let A := subBytes p W
  let B := shiftRows A
  if i.val < Config.mixLast then mixColumns p B else B

/-- The states after each of the rounds listed, starting from `W`. -/
def roundsFrom (p : Params) : List (Fin 10) → Block Byte → List (Block Byte)
  | [], _ => []
  | i :: is, W => round p i W :: roundsFrom p is (round p i W)

/-- `TRACE(IN)`: the ten states `T[0..9]` of an input in input order (R74). -/
def trace (p : Params) (inp : Block Byte) : List (Block Byte) :=
  roundsFrom p [0, 1, 2, 3, 4, 5, 6, 7, 8, 9] (toCM inp)

/-! The micro-operations act on `ST`, whose bytes may have no value (R11). A byte of the new state has a
value when each byte it is computed from has one (DESIGN CHOICE, log entry 1; from reset a micro-step
always meets sixteen values, R11). -/

/-- SubBytes, lane by lane. -/
def subLanes (p : Params) (S : Block (Option Byte)) : Block (Option Byte) :=
  S.map fun b => b.map (subByte p)

/-- ShiftRows moves lanes, valued or not. -/
def shiftLanes (S : Block (Option Byte)) : Block (Option Byte) := shiftRows S

/-- MixColumns, column by column. -/
def mixLanes (p : Params) (S : Block (Option Byte)) : Block (Option Byte) :=
  Block.ofCells fun i j => (col S j).all?.map (dot (mixRow p i))

end Sys2Proof
end

