-- ==== Sys2Proof/Machine/Ops.lean ====
section
/-! DEFINITION. The shared operations of the controller: the table of combinations, fault entry, reset,
emission, the end of a round, and the preconditions of commands and micro-steps. -/

namespace Sys2Proof.Machine

/-- The 2-bit code of the mode (R14). -/
def fsmCode : Fsm → BitVec 2
  | .load => 0
  | .busy => 1
  | .done => 2
  | .fault => 3

/-- The 2-bit code of the cause (R15). -/
def errCode : Err → BitVec 2
  | .none => 0
  | .length => 1
  | .illcmd => 2
  | .unused => 3

/-- One of the rows of the table of R22. From any other combination "no step is defined" (U4). -/
def legal (s : State) : Bool :=
  match s.fsm with
  | .load =>
    decide (s.icnt.toNat ≤ 16) && decide (s.rnd = 0) && decide (s.ph = 0) && decide (s.err = .none)
      && decide (s.out.length = 0)
  | .busy =>
    decide (s.icnt.toNat = 16) && decide (s.rnd.toNat ≤ 9)
      && (decide (s.ph = 0) || decide (s.ph = 1) || (decide (s.ph = 2) && decide (s.rnd.toNat < 9)))
      && decide (s.err = .none) && decide (s.out.length = s.rnd.toNat)
  | .done =>
    decide (s.icnt.toNat = 16) && decide (s.rnd = 10) && decide (s.ph = 0) && decide (s.err = .none)
      && decide (s.out.length = 10)
  | .fault =>
    decide (s.icnt.toNat ≤ 16) && decide (s.rnd = 0) && decide (s.ph = 0)
      && (decide (s.err = .length) || decide (s.err = .illcmd)) && decide (s.out.length = 0)

/-- Fault entry, `raise C` (R97): `ERR` and `FSM` are written, nothing else. -/
def raise (c : Err) (s : State) : State := { s with err := c, fsm := .fault }

/-- One rising edge with `rst = 1` (R105): the reset state, whatever the state was. The ROMs are not
touched (R106); what the host does next and the multiplier probe are not the block's. -/
def applyReset (s : State) : State :=
  { State.reset with host := s.host, gfOut := s.gfOut, params := s.params }

/-- `upc <- (r, p)` (R7, R12). -/
def setUpc (r : BitVec 4) (p : BitVec 2) (s : State) : State := { s with rnd := r, ph := p }

/-- `emit(RND, ST)`: the pair goes to `OUT` (R18) and the strobe is raised for the period after the
step (R87). -/
def emit (s : State) : State :=
  { s with out := s.out ++ [{ round := s.rnd, bytes := s.st }], strobe := some s.rnd }

/-- `round_end()` (R83): emit, then the next round, or `DONE` after round 9. -/
def roundEnd (s : State) : State :=
  let t := emit s
  if s.rnd.toNat < Config.nr - 1 then setUpc (s.rnd + 1) 0 t
  else { setUpc 10 0 t with fsm := .done }

/-- Accepting a command (R76): only in `LOAD`; `body` says what the command does. -/
def accept (body : State → State) (s : State) : Result :=
  if legal s = false then .refused .unreachableState
  else if s.fsm = .load then .next (body s)
  else .fault .commandNotAccepted

/-- A micro-step (R79): only in `BUSY` with `PH` naming it; `body` says what it does. -/
def microStep (p : BitVec 2) (body : State → State) (s : State) : Result :=
  if legal s = false then .refused .unreachableState
  else if s.fsm = .busy ∧ s.ph = p then .next (body s)
  else .refused .microOpNotSelected

/-- An operation of the multiplier unit run by itself (D12): its result is seen at the probe, no register
changes. From outside the table of R22 it is refused like everything else (U4). -/
def observeProduct (r : Byte) (s : State) : Result :=
  if legal s = false then .refused .unreachableState else .next { s with gfOut := some r }

end Sys2Proof.Machine
end

