-- ==== Sys2Proof/Machine/Commands.lean ====
section
/-! DEFINITION. The host commands: LDB (R77), RUN (R78), and a reserved word (R94). -/

namespace Sys2Proof.Machine

/-- What an accepted `LDB d` does (R77). -/
def loadByte (d : Byte) (s : State) : State :=
  if h : s.icnt.toNat < 16 then
    { s with st := s.st.set (tpos ⟨s.icnt.toNat, h⟩) (some d), icnt := s.icnt + 1 }
  else raise .length s

/-- `LDB d` (R77). -/
def execLdb (d : Byte) (s : State) : Result := accept (loadByte d) s

/-- What an accepted `RUN` does (R78). -/
def startRun (s : State) : State :=
  if s.icnt = 16 then setUpc 0 0 { s with fsm := .busy } else raise .length s

/-- `RUN` (R78). -/
def execRun (s : State) : Result := accept startRun s

/-- A reserved command word, accepted, raises `ILLCMD` (R40, R94). -/
def execReserved (s : State) : Result := accept (raise .illcmd) s

end Sys2Proof.Machine
end

