-- ==== Sys2Proof/Machine/MicroOps.lean ====
section
/-! DEFINITION. The micro-operations SUB (R80), SHR (R81) and MIX (R82): each replaces the whole of ST
by a function of its old value (R34, R108). -/

namespace Sys2Proof.Machine

/-- `ST <- SUBBYTES(ST)`, `upc <- (RND, 1)` (R80). -/
def doSub (s : State) : State := setUpc s.rnd 1 { s with st := subLanes s.params s.st }

/-- Micro-op `SUB` (R80). -/
def execSub (s : State) : Result := microStep 0 doSub s

/-- `ST <- SHIFTROWS(ST)`, then `upc <- (RND, 2)`, or the end of round 9 (R81). -/
def doShr (s : State) : State :=
  let t := { s with st := shiftLanes s.st }
  if s.rnd.toNat < Config.mixLast then setUpc s.rnd 2 t else roundEnd t

/-- Micro-op `SHR` (R81). -/
def execShr (s : State) : Result := microStep 1 doShr s

/-- `ST <- MIXCOLUMNS(ST)`, then the end of the round (R82). -/
def doMix (s : State) : State := roundEnd { s with st := mixLanes s.params s.st }

/-- Micro-op `MIX` (R82). -/
def execMix (s : State) : Result := microStep 2 doMix s

end Sys2Proof.Machine
end

