-- ==== Sys2Proof/Machine/Multiplier.lean ====
section
/-! DEFINITION. The multiplier operations as instructions (R50 to R52): the unit by itself, its result
seen at the probe (log entry 8). The unit does not step on its own (R9), so no step of the machine runs one
of these; a step uses the same functions inside DOT, in MIX. -/

namespace Sys2Proof.Machine

/-- `GFMUL1 v` (R50). -/
def execGfmul1 (v : Byte) (s : State) : Result := observeProduct (gfmul1 v) s

/-- `GFMUL2 v` (R51). -/
def execGfmul2 (v : Byte) (s : State) : Result := observeProduct (gfmul2 v) s

/-- `GFMUL3 v` (R52). -/
def execGfmul3 (v : Byte) (s : State) : Result := observeProduct (gfmul3 v) s

end Sys2Proof.Machine
end

