-- ==== Sys2Proof/Machine/Dispatch.lean ====
section
/-! DEFINITION. One arm per row of the opcode table. -/

namespace Sys2Proof.Machine

def exec (i : Instr) (s : State) : Host.Outcome State Fault Refusal :=
  match i with
  | .ldb d => Sys2Proof.Machine.execLdb d s
  | .run => Sys2Proof.Machine.execRun s
  | .sub => Sys2Proof.Machine.execSub s
  | .shr => Sys2Proof.Machine.execShr s
  | .mix => Sys2Proof.Machine.execMix s
  | .gfmul1 v => Sys2Proof.Machine.execGfmul1 v s
  | .gfmul2 v => Sys2Proof.Machine.execGfmul2 v s
  | .gfmul3 v => Sys2Proof.Machine.execGfmul3 v s

end Sys2Proof.Machine
end

