-- ==== Sys2Proof/Machine/Fetch.lean ====
section
/-! DEFINITION. What the next step is: a command, a micro-step, a reset, or none (R9). The block fetches
from no memory (R28, R36): a command word comes from the host's pins, a micro-op from `PH`. The multiplier
has no step of its own. An edge at which nothing is due is no step; the next step is at a later edge. -/

namespace Sys2Proof.Machine

/-- What `fetch` finds. -/
inductive Fetched where
  /-- A rising edge with `rst = 1`; the state after it. -/
  | reset (t : State)
  /-- A code to run, on this state. -/
  | issue (c : CodeWord) (t : State)
  /-- The controller has no step. -/
  | stuck (f : Fault)
  /-- The state has no step. -/
  | refuse (r : Refusal)
deriving DecidableEq, Repr

/-- One clock period goes by: the strobe of the last step ends (R87, R110) and `rest` is what the host
drives from then on. -/
def newPeriod (rest : List HostInput) (s : State) : State := { s with strobe := none, host := rest }

/-- Nothing happens in the block at this edge of the host's: there is no reset, no command is accepted and
no micro-step is due. So it is in `LOAD` with no word at the port, and in `DONE` and `FAULT` whatever is at
the port, since a word there is not accepted and changes nothing (R76, R84, R97, R109). In `BUSY` a
micro-step is due at every edge (R79). From outside the table of R22 only a reset is defined (U4, R105). -/
def nothingDue (s : State) (h : HostInput) : Bool :=
  !h.rst &&
    (!legal s ||
      match s.fsm with
      | .load => h.cmd.isNone
      | .busy => false
      | .done => true
      | .fault => true)

/-- What the host drives from the next edge on at which something happens (log entry 2). An edge without a
step changes no register, so leaving the edges before it out loses nothing. -/
def pending (s : State) : List HostInput := s.host.dropWhile (nothingDue s)

/-- Why the controller has no step in `DONE` or `FAULT`: a word is at the port there, which is never accepted
(R76; U10: "stuck"), or else the run is over, for the reason given (log entry 3). -/
def stuckAfterRun (f : Fault) (s : State) : Fetched :=
  .stuck (if s.host.any (fun h => h.cmd.isSome) then .commandNotAccepted else f)

/-- The next step when it is no reset, by mode; `edges` is what the host drives from it on. In `LOAD` a
presented word is accepted (R76). In `BUSY` the micro-op named by `PH` runs whatever the host drives (R79),
and the edge passes, so that what the host does after a word it presented there (holds it, withdraws it,
resets) is the next entry (DESIGN CHOICE, log entry 2). Otherwise the controller has no step (R76, R84, R97;
log entry 3). -/
def fetchRunning (edges : List HostInput) (s : State) : Fetched :=
  match s.fsm, edges with
  | .busy, _ => .issue (.uop s.ph) (newPeriod edges.tail s)
  | .load, .drive _ (some w) :: rest => .issue (.cw w) (newPeriod rest s)
  | .load, _ => .stuck .awaitingCommand
  | .done, _ => stuckAfterRun .runComplete s
  | .fault, _ => stuckAfterRun .runFaulted s

/-- The next step. Reset wins over everything, from any state and at any edge (R96, R105); a combination
outside R22 has no other step (U4). -/
def fetch (s : State) : Fetched :=
  match pending s with
  | .drive true _ :: rest => .reset (applyReset { s with host := rest })
  | edges => if legal s = false then .refuse .unreachableState else fetchRunning edges s

/-- What a code without an instruction does: a reserved command word raises `ILLCMD` (R94); micro-op
code `11` and coefficient code `00` have no meaning (U4, U1). -/
def undecodable (e : DecodeError) (s : State) : Result :=
  match e with
  | .reservedCommand _ => execReserved s
  | .noMicroOp => .refused .noMicroOp
  | .noCoefficient => .refused .undefinedCoefficient

/-- `s` made ready to accept a command: in `LOAD`, with its registers in the row of R22. -/
def readyForCommand (s : State) : State :=
  { s with
    icnt := if s.icnt.toNat ≤ 16 then s.icnt else 0
    rnd := 0, ph := 0, fsm := .load, err := .none, out := [] }

/-- `s` made ready to perform micro-op `p`: in `BUSY` at phase `p`, at its own round where that is a row
of R22, else at round 0. -/
def readyForMicroOp (p : BitVec 2) (s : State) : State :=
  let t := { s with icnt := 16, ph := p, fsm := .busy, err := .none }
  if legal t then t else { t with rnd := 0, out := [] }

/-- `s` with code `c` placed where the next step takes its code from (log entry 14). No step takes a
coefficient code from anywhere: MIX reads its coefficients from the `MIX` ROM (R72, D12), so there is
nowhere to place one. -/
def placeCode (c : CodeWord) (s : State) : State :=
  match c with
  | .cw w => { readyForCommand s with host := .drive false (some w) :: s.host }
  | .uop p => { readyForMicroOp p s with host := .drive false none :: s.host }
  | .coef _ _ => s

end Sys2Proof.Machine
end

