-- ==== Sys2Proof/Machine/Issue.lean ====
section
/-! DEFINITION. Running a code: the instruction it decodes to, or what a code without one does. -/

namespace Sys2Proof.Machine

/-- `c` run on `s`. A step runs the command at the pins or the micro-op of `PH` so; a coefficient code with
its operand is run so on the multiplier by itself, which D12 asks for, and never by a step (R9). -/
def runCode (c : CodeWord) (s : State) : Result :=
  match decode c with
  | .ok i => exec i s
  | .error e => undecodable e s

end Sys2Proof.Machine
end

