-- ==== Sys2Proof/Machine/Asm.lean ====
section
/-! DEFINITION. Assembler lines as what the host drives (R46, R47). -/

namespace Sys2Proof.Machine

/-- The UTF-8 encoding of one character (PRESUMED, log entry 15: the spec names UTF-8 and does not
define it). -/
def utf8 (c : Char) : List Byte :=
  let n := c.val.toNat
  if n < 0x80 then [BitVec.ofNat 8 n]
  else if n < 0x800 then [BitVec.ofNat 8 (0xC0 + n / 0x40), BitVec.ofNat 8 (0x80 + n % 0x40)]
  else if n < 0x10000 then
    [BitVec.ofNat 8 (0xE0 + n / 0x1000), BitVec.ofNat 8 (0x80 + n / 0x40 % 0x40),
     BitVec.ofNat 8 (0x80 + n % 0x40)]
  else
    [BitVec.ofNat 8 (0xF0 + n / 0x40000), BitVec.ofNat 8 (0x80 + n / 0x1000 % 0x40),
     BitVec.ofNat 8 (0x80 + n / 0x40 % 0x40), BitVec.ofNat 8 (0x80 + n % 0x40)]

/-- The host presents the word of a command. -/
def present (w : CmdWord) : HostInput := .drive false (some w)

/-- The word of `LDB d` (R38). -/
def ldbWord (d : Byte) : CmdWord := 0#1 ++ d

/-- The word of `RUN` (R39). -/
def runWord : CmdWord := 0x100

/-- The byte of an `LDB` line (R46). -/
def asmByte : AsmByte → Byte
  | .number n => BitVec.ofNat 8 n
  | .char c => BitVec.ofNat 8 c.val.toNat

/-- One line as what the host drives: a command is presented, `.reset` is one assertion of the reset
input (R46), and a pseudo-instruction is its expansion (R47). -/
def asmExpand : AsmLine → List HostInput
  | .ldb b => [present (ldbWord (asmByte b))]
  | .run => [present runWord]
  | .reset => [.drive true none]
  | .load text => (text.flatMap utf8).map fun d => present (ldbWord d)
  | .loadx bytes => bytes.map fun n => present (ldbWord (BitVec.ofNat 8 n))
  | .encrypt text => ((text.flatMap utf8).map fun d => present (ldbWord d)) ++ [present runWord]

/-- A program, issued in order (R46), one line an edge. It adds no waiting: a `.reset` after `RUN` falls at
the edge of the first micro-step, and a host that waits for `DONE` drives edges with nothing on them in
between (DESIGN CHOICE, log entry 14). -/
def asmProgram (lines : List AsmLine) : List HostInput := lines.flatMap asmExpand

end Sys2Proof.Machine
end

