-- ==== Sys2Proof/Machine/Pins.lean ====
section
/-! DEFINITION. What the host can observe: the output pins (R87), the status vector (R16) and the end of
a run (R89). -/

namespace Sys2Proof.Machine

/-- `STATUS`: FSM 1:0, ERR 3:2, ICNT 8:4, RND 12:9, PH 14:13, bit 15 zero (R16). -/
def State.status (s : State) : BitVec 16 :=
  0#1 ++ s.ph ++ s.rnd ++ s.icnt ++ errCode s.err ++ fsmCode s.fsm

/-- `cmd_ready` is 1 exactly when `FSM = LOAD` (R76). -/
def State.cmdReady (s : State) : Bool := decide (s.fsm = .load)

/-- Lane `i` of `out_state`, bits `8*i+7 : 8*i`: byte `i` of `ST` (R27); "a model returns no value" for a
byte that has none (R111). -/
def State.outLane (s : State) (i : Fin 16) : Option Byte := s.st.get i

/-- The bus value of sixteen bytes, byte `i` in bits `8*i+7 : 8*i` (R27). -/
def packLanes (b : Block Byte) : BitVec 128 :=
  b.b15 ++ b.b14 ++ b.b13 ++ b.b12 ++ b.b11 ++ b.b10 ++ b.b9 ++ b.b8
    ++ b.b7 ++ b.b6 ++ b.b5 ++ b.b4 ++ b.b3 ++ b.b2 ++ b.b1 ++ b.b0

/-- The sixteen bytes of a block of optional bytes, when all have a value. -/
def valuesOf? (S : Block (Option Byte)) : Option (Block Byte) :=
  match S with
  | ⟨some a0, some a1, some a2, some a3, some a4, some a5, some a6, some a7,
     some a8, some a9, some a10, some a11, some a12, some a13, some a14, some a15⟩ =>
    some ⟨a0, a1, a2, a3, a4, a5, a6, a7, a8, a9, a10, a11, a12, a13, a14, a15⟩
  | _ => none

/-- `out_state`, the 128-bit bus, when every lane has a value (R27, R87, R111). -/
def State.outBus (s : State) : Option (BitVec 128) := (valuesOf? s.st).map packLanes

/-- `out_valid` (R87). -/
def State.outValid (s : State) : Bool := s.strobe.isSome

/-- `out_round`, valid with `out_valid` (R87). -/
def State.outRound (s : State) : Option (BitVec 4) := s.strobe

/-- The end of a run: `DONE` or `FAULT` (R89). -/
def State.runEnded (s : State) : Bool := decide (s.fsm = .done) || decide (s.fsm = .fault)

/-- The final output: the last emission of a finished run (R18, R89). -/
def State.finalOutput (s : State) : Option Emission :=
  if s.fsm = .done then s.out.getLast? else none

end Sys2Proof.Machine
end

