-- ==== Sys2Proof/Safety.lean ====
section
/-! DEFINITION. What counts as a good state, in the terms the claims use: the invariant of the reachable
states, what a run has computed so far, and which host entries leave a run alone. -/

namespace Sys2Proof.Machine

/-- `k` steps, stopping at the first fault or refusal: `core.run` with its types written out. -/
def steps : Nat → State → Result
  | 0, s => .next s
  | k + 1, s =>
    match step s with
    | .next t => steps k t
    | .fault f => .fault f
    | .refused r => .refused r

/-- The sixteen bytes with their values, as `ST` holds them. -/
def valued (W : Block Byte) : Block (Option Byte) := W.map some

/-- The invariant of the reachable states (R11, R22, R18, R87). -/
structure Inv (s : State) : Prop where
  /-- The registers are in a row of the table of R22. -/
  table : legal s = true
  /-- Exactly the bytes `TPOS(n)`, `n < ICNT`, have been written (R11). -/
  written : ∀ n : Fin 16, (s.st.get (tpos n)).isSome = decide (n.val < s.icnt.toNat)
  /-- The emissions carry the round indices 0, 1, 2, ... in order (R18). -/
  rounds : s.out.map Emission.round = (List.range s.out.length).map (BitVec.ofNat 4)
  /-- Every emitted byte has a value: no unwritten byte is ever emitted (R11, R18). -/
  whole : ∀ e ∈ s.out, ∀ i : Fin 16, (e.bytes.get i).isSome = true
  /-- Between rounds `ST` is the last emission (R83). -/
  settled : s.ph = 0 → ∀ e, s.out.getLast? = some e → e.bytes = s.st
  /-- While `out_valid = 1`, `out_state` and `out_round` show the last emission (R87). -/
  shown : ∀ r, s.strobe = some r → s.ph = 0 ∧ s.out.getLast? = some ⟨r, s.st⟩

/-- `ST` at phase `ph` of a round that began with `W` (R79). -/
def atPhase (p : Params) (W : Block Byte) (ph : BitVec 2) : Block Byte :=
  match ph.toNat with
  | 0 => W
  | 1 => subBytes p W
  | _ => shiftRows (subBytes p W)

/-- A list of round states as the emissions of rounds `r`, `r + 1`, ... -/
def emissionsFrom (r : Nat) : List (Block Byte) → List Emission
  | [] => []
  | W :: Ws => ⟨BitVec.ofNat 4 r, valued W⟩ :: emissionsFrom (r + 1) Ws

/-- `s` is a state of the run on input `inp` (in input order): while loading, the first `ICNT` bytes
stand where TOCM puts them (R77); from `RUN` on, `OUT` is the first `RND` states of `TRACE(inp)` and `ST`
is the state of the current phase (R85). -/
def FollowsInput (inp : Block Byte) (s : State) : Prop :=
  match s.fsm with
  | .load | .fault => ∀ n : Fin 16, n.val < s.icnt.toNat → s.st.get (tpos n) = some (inp.get n)
  | .busy | .done =>
    s.out = emissionsFrom 0 ((trace s.params inp).take s.rnd.toNat) ∧
      ∃ W, (toCM inp :: trace s.params inp)[s.rnd.toNat]? = some W ∧
        s.st = valued (atPhase s.params W s.ph)

/-- Some input explains the state. -/
def Explained (s : State) : Prop := ∃ inp, FollowsInput inp s

/-- A host entry that is no reset. -/
def quiet (h : HostInput) : Bool := !h.rst

/-- The host's next entry, if any, is no reset. -/
def headQuiet (s : State) : Bool :=
  match s.host with
  | [] => true
  | h :: _ => quiet h

/-- The next step is the controller's own: the next edge at which something happens, if any, is no reset. -/
def ownStep (s : State) : Bool :=
  match pending s with
  | [] => true
  | h :: _ => quiet h

/-- Micro-steps done in the run, counted from `RUN` (R86). -/
def microStepsDone (s : State) : Nat := 3 * s.rnd.toNat + s.ph.toNat

/-- A safe state: no fault of the block has occurred (R14, R99). -/
def faultFree (s : State) : Bool := decide (s.fsm ≠ .fault)

end Sys2Proof.Machine
end

