-- ==== Sys2Proof/Certificates/Slice0/Obligations.lean ====
section
/-! DEFINITION. The statements for the provers, by file of spec/. Each docstring names the rules of spec/
it formalises, and the log entry of any clause that rests on a choice of the model. -/

namespace Sys2Proof.Claims

open Sys2Proof.Machine

/-- Multiplication in GF(2^8): the XOR of the doublings of `a` that `b` selects. Only for the statement
about the SBox contents (R58); the block's multiplier has no such operation (R53). -/
def fieldMul (a b : Byte) : Byte :=
  (List.range 8).foldl (fun acc k => if b.getLsbD k then acc ^^^ Nat.repeat xtime k a else acc) 0

/-- The byte with its nibbles exchanged (R58). -/
def swapNibbles (b : Byte) : Byte := loNibble b ++ hiNibble b

/-- The ROM contents stored the other way: cell (line `i`, place `j`) of one is cell (`j`, `i`) of the
other; on the default it is `SBOX_ROM_NATURAL` (D1, R61). -/
def transposeSbox (p : Params) : Params :=
  { p with sboxRom := Block.ofFn fun i => Block.ofFn fun j => (p.sboxRom.get j).get i }

/-- Sixteen equal bytes. -/
def equalBytes (v : Byte) : Block Byte := Block.ofFn fun _ => v

/-- The host loads an input and starts the run: sixteen `LDB`, then `RUN` (R107). -/
def loadAndRun (inp : Block Byte) : List HostInput :=
  (inp.toList.map fun d => present (ldbWord d)) ++ [present runWord]

/-- The bytes loaded one after another, each by `LDB`. -/
def loadEach : List Byte → State → Result
  | [], s => .next s
  | d :: ds, s =>
    match exec (.ldb d) s with
    | .next t => loadEach ds t
    | .fault f => .fault f
    | .refused r => .refused r

end Sys2Proof.Claims

open Sys2Proof Sys2Proof.Machine Sys2Proof.Claims

/-! ## Encodings (30_encoding.md) -/

/-- Words written out from R38, R39, R40, R42 and R43 decode to what they stand for. -/
def Obligations.DecodesSpecWords : Prop :=
  decode (.cw 0b000000000) = .ok (.ldb 0x00) ∧ decode (.cw 0b001100001) = .ok (.ldb 0x61) ∧
  decode (.cw 0b011111111) = .ok (.ldb 0xFF) ∧ decode (.cw 0b100000000) = .ok .run ∧
  decode (.cw 0b100000001) = .error (.reservedCommand 0x101) ∧
  decode (.cw 0b111111111) = .error (.reservedCommand 0x1FF) ∧
  decode (.uop 0b00) = .ok .sub ∧ decode (.uop 0b01) = .ok .shr ∧ decode (.uop 0b10) = .ok .mix ∧
  decode (.uop 0b11) = .error .noMicroOp ∧
  decode (.coef 0b01 0xDB) = .ok (.gfmul1 0xDB) ∧ decode (.coef 0b10 0xDB) = .ok (.gfmul2 0xDB) ∧
  decode (.coef 0b11 0x13) = .ok (.gfmul3 0x13) ∧ decode (.coef 0b00 0x13) = .error .noCoefficient

/-- Decode and encode agree in both directions, for every instruction and every code (R38 to R44): a code
decodes to `i` exactly when it is the encoding of `i`. -/
def Obligations.DecodeIffEncode : Prop :=
  ∀ (i : Instr) (c : CodeWord), i.wellFormed = true → (decode c = .ok i ↔ c = encode i)

/-- R44: bit 8 clear is `LDB` with the low byte, `0x100` is `RUN`, any other word is reserved. The three
ranges are disjoint and cover all 512 words. -/
def Obligations.CommandWordDecode : Prop :=
  ∀ n : Nat, n < 512 →
    if n < 0x100 then decode (.cw (BitVec.ofNat 9 n)) = .ok (.ldb (BitVec.ofNat 8 n))
    else if n = 0x100 then decode (.cw (BitVec.ofNat 9 n)) = .ok .run
    else decode (.cw (BitVec.ofNat 9 n)) = .error (.reservedCommand (BitVec.ofNat 9 n))

/-- An `LDB` line is the presented word `0x0dd`, with the number or the character's code as its byte; `RUN`
is the word `0x100` and `.reset` one edge with `rst = 1` (R46). Pseudo-instructions are their expansions
(R47); a text in ASCII here (outside it, log entry 15). The last clause, that a program is its lines one
after another, one line an edge with no waiting added, is the model's choice (log entry 14). -/
def Obligations.AssemblerExpansions : Prop :=
  (∀ n : Nat, (AsmLine.ldb (.number n)).wellFormed = true →
    ∃ w : CmdWord, w.toNat = n ∧ asmExpand (.ldb (.number n)) = [.drive false (some w)]) ∧
  (∀ c : Char, (AsmLine.ldb (.char c)).wellFormed = true →
    ∃ w : CmdWord, w.toNat = c.val.toNat ∧ asmExpand (.ldb (.char c)) = [.drive false (some w)]) ∧
  asmExpand .run = [.drive false (some 0x100)] ∧
  asmExpand .reset = [.drive true none] ∧
  (∀ bytes : List Nat, asmExpand (.loadx bytes) = bytes.flatMap fun n => asmExpand (.ldb (.number n))) ∧
  (∀ text : List Char, (∀ c ∈ text, (AsmByte.char c).wellFormed = true) →
    asmExpand (.load text) = text.flatMap fun c => asmExpand (.ldb (.char c))) ∧
  (∀ text : List Char, asmExpand (.encrypt text) = asmExpand (.load text) ++ asmExpand .run) ∧
  (∀ lines : List AsmLine, asmProgram lines = lines.flatMap asmExpand)

/-! ## The multiplier (40_gf.md) -/

/-- R48: `LARGE(v)` is bit 7, 1 exactly when `v >= 0x80`. R49: doubling, as numbers and as wires, and the
corner values of the rule. (What R49 marks as derived stands in `MultiplierLaws`.) -/
def Obligations.XtimeDoubles : Prop :=
  (∀ v : Byte,
    (large v = v.getLsbD 7) ∧ (large v = true ↔ 0x80 ≤ v.toNat) ∧
    (xtime v).toNat = ((2 * v.toNat) ^^^ (if 0x80 ≤ v.toNat then 0x1B else 0)) % 256 ∧
    xtime v = (v.extractLsb' 0 7 ++ 0#1) ^^^ (if v.getLsbD 7 then 0x1B else 0x00)) ∧
  xtime 0x00 = 0x00 ∧ xtime 0x7F = 0xFE ∧ xtime 0x80 = 0x1B ∧ xtime 0xFF = 0xE5 ∧ xtime 0x57 = 0xAE

/-- R50, R51, R52: each coefficient code selects its operation, and what the operation gives. -/
def Obligations.MultiplierOperations : Prop :=
  ∀ v : Byte,
    (decode (.coef 0b01 v) = .ok (.gfmul1 v) ∧ gfmul .one v = v) ∧
    (decode (.coef 0b10 v) = .ok (.gfmul2 v) ∧ gfmul .two v = xtime v) ∧
    (decode (.coef 0b11 v) = .ok (.gfmul3 v) ∧ gfmul .three v = v ^^^ xtime v)

/-- R54: `DOT` is the XOR of the four products, in whatever order they are combined; an all-zero column
gives 0 for every row. (The corner case R54 marks as derived stands in `MultiplierLaws`.) -/
def Obligations.DotIsXorOfProducts : Prop :=
  (∀ (r : Quad Coef) (c : Quad Byte),
    dot r c = gfmul (r.get 0) (c.get 0) ^^^ gfmul (r.get 1) (c.get 1) ^^^ gfmul (r.get 2) (c.get 2)
      ^^^ gfmul (r.get 3) (c.get 3) ∧
    ∀ f : List (Fin 4), f.Perm [0, 1, 2, 3] →
      dot r c = f.foldr (fun k acc => gfmul (r.get k) (c.get k) ^^^ acc) 0x00) ∧
  (∀ r : Quad Coef, dot r ⟨0, 0, 0, 0⟩ = 0)

/-- R55: all coefficients 1 give the XOR of the four bytes; `DOT(row, .)` is linear over XOR; the third
product is the XOR of the first two. R54: a column of four equal bytes under a row that is some order of
2, 3, 1, 1 gives that byte. R49: the mask may come before the XOR, and doubling is a bijection. (All but
the first are marked derived in the spec.) -/
def Obligations.MultiplierLaws : Prop :=
  (∀ (r : Quad Coef) (v : Byte),
    ([r.get 0, r.get 1, r.get 2, r.get 3] : List Coef).Perm [.two, .three, .one, .one] →
      dot r ⟨v, v, v, v⟩ = v) ∧
  (∀ v : Byte, xtime v = (v <<< 1) ^^^ (if v.getLsbD 7 then 0x1B else 0x00)) ∧
  Function.Bijective xtime ∧
  (∀ c : Quad Byte, dot ⟨.one, .one, .one, .one⟩ c = c.q0 ^^^ c.q1 ^^^ c.q2 ^^^ c.q3) ∧
  (∀ (r : Quad Coef) (a b : Quad Byte),
    dot r ⟨a.q0 ^^^ b.q0, a.q1 ^^^ b.q1, a.q2 ^^^ b.q2, a.q3 ^^^ b.q3⟩ = dot r a ^^^ dot r b) ∧
  (∀ r : Quad Coef, dot r ⟨0, 0, 0, 0⟩ = 0) ∧
  (∀ v : Byte, gfmul .three v = gfmul .one v ^^^ gfmul .two v)

/-- GFMUL1, GFMUL2 and GFMUL3 complete from every state of the table of R22, with every operand, and leave
every register of the block as it was; the result is seen at the probe `gfOut`, which is the model's own
field (log entry 8). From any other state they are refused (U4, log entry 4). -/
def Obligations.MultiplierInstructionsComplete : Prop :=
  ∀ (v : Byte) (s : State),
    (legal s = true →
      exec (.gfmul1 v) s = .next { s with gfOut := some v } ∧
      exec (.gfmul2 v) s = .next { s with gfOut := some ((v <<< 1) ^^^ (if v.getLsbD 7 then 0x1B else 0)) } ∧
      exec (.gfmul3 v) s =
        .next { s with gfOut := some (v ^^^ (v <<< 1) ^^^ (if v.getLsbD 7 then 0x1B else 0)) }) ∧
    (legal s = false →
      exec (.gfmul1 v) s = .refused .unreachableState ∧ exec (.gfmul2 v) s = .refused .unreachableState ∧
      exec (.gfmul3 v) s = .refused .unreachableState)

/-- Coefficient code `00` has no meaning (R53, U1): run on the multiplier it is refused in every state, and
no coefficient has that code. Running a code on the unit by itself is the model's own (log entry 8). -/
def Obligations.CoefficientZeroRefused : Prop :=
  (∀ c : Coef, c.code ≠ 0 ∧ Coef.ofCode? c.code = some c) ∧
  ∀ (s : State) (v : Byte), runCode (.coef 0 v) s = .refused .undefinedCoefficient

/-- R71 and R53: a matrix given as 2-bit codes is taken exactly when it has sixteen entries and none is code
`00`, and then its cells have those codes. -/
def Obligations.MatrixCodesChecked : Prop :=
  ∀ codes : List Code2,
    ((matrixOfCodes codes).isSome = true ↔ codes.length = 16 ∧ ∀ c ∈ codes, c ≠ 0) ∧
    ((matrixOfCodes codes).isSome = mixCodesWellFormed codes) ∧
    ∀ M, matrixOfCodes codes = some M → M.toList.map Coef.code = codes

/-! ## The SBox (41_sbox.md) -/

/-- R56: the nibbles are the sums of the bits. R57: the address is `16*y + x`. R60: `SUB(b)` is the ROM cell
there, for every ROM contents. -/
def Obligations.SubstituteReadsSwappedAddress : Prop :=
  ∀ (p : Params) (b : Byte),
    (hiNibble b).toNat = (b.getLsbD 7).toNat * 8 + (b.getLsbD 6).toNat * 4 + (b.getLsbD 5).toNat * 2
      + (b.getLsbD 4).toNat ∧
    (loNibble b).toNat = (b.getLsbD 3).toNat * 8 + (b.getLsbD 2).toNat * 4 + (b.getLsbD 1).toNat * 2
      + (b.getLsbD 0).toNat ∧
    (romAddr b).toNat = 16 * (b.toNat % 16) + b.toNat / 16 ∧
    ∀ (x y : Fin 16), x.val = b.toNat / 16 → y.val = b.toNat % 16 →
      subByte p b = (p.sboxRom.get y).get x ∧ memReadSbox p (romAddr b) = (p.sboxRom.get y).get x

/-- The default ROM makes `SUB` the AES S-box of R58: the affine map of the inverse in GF(2^8), with 0 for
0. The contents are the spec's general knowledge (G1, log entry 5). -/
def Obligations.DefaultSboxIsInverseThenAffine : Prop :=
  ∀ b : Byte, ∃ t : Byte, ((b = 0 ∧ t = 0) ∨ fieldMul b t = 1) ∧
    ∀ i : Nat, i < 8 →
      (subByte defaultParams b).getLsbD i =
        (t.getLsbD i ^^ t.getLsbD ((i + 4) % 8) ^^ t.getLsbD ((i + 5) % 8) ^^ t.getLsbD ((i + 6) % 8)
          ^^ t.getLsbD ((i + 7) % 8) ^^ (0x63 : Byte).getLsbD i)

/-- R61 (b), (c) and (d) for the default ROM (log entry 5): `SUB` is a bijection with no fixed point, is not
linear over XOR, and with the ROM stored the other way it substitutes the exchanged byte (that last for
every ROM). -/
def Obligations.DefaultSboxConsequences : Prop :=
  Function.Bijective (subByte defaultParams) ∧ (∀ b : Byte, subByte defaultParams b ≠ b) ∧
  subByte defaultParams 0x00 ^^^ subByte defaultParams 0x01 ^^^ subByte defaultParams 0x02
    ^^^ subByte defaultParams 0x03 = 0x13 ∧
  (∀ b : Byte, subByte defaultParams (swapNibbles b) = subByte defaultParams b ↔ swapNibbles b = b) ∧
  ∀ (p : Params) (b : Byte), subByte (transposeSbox p) b = subByte p (swapNibbles b)

/-! ## The state matrix (42_statematrix.md) -/

/-- R63: `out[4*i + j] = in[4*j + i]`, which is the list the rule prints. R64: the converter is its own
inverse. -/
def Obligations.ConverterTransposes : Prop :=
  ∀ inp : Block Byte,
    (∀ i j : Fin 4, (toCM inp).get (cell i j) = inp.get (cell j i)) ∧
    (toCM inp).toList = ([0, 4, 8, 12, 1, 5, 9, 13, 2, 6, 10, 14, 3, 7, 11, 15] : List (Fin 16)).map inp.get ∧
    toCM (toCM inp) = inp

/-- R65: the `n`-th input byte goes to `4*(n % 4) + n/4`, which is the same conversion; that this is a
bijection and its own inverse is marked derived in the spec. -/
def Obligations.IngestPositions : Prop :=
  (∀ n : Fin 16, (tpos n).val = 4 * (n.val % 4) + n.val / 4 ∧ tpos (tpos n) = n) ∧
  Function.Bijective tpos ∧
  (∀ (inp : Block Byte) (n : Fin 16), (toCM inp).get (tpos n) = inp.get n)

/-! ## The round operations (43_round.md) -/

/-- R70: four applications of `SHIFTROWS` give the identity. R75 (c): `SUBBYTES` and `SHIFTROWS` commute.
R72: `MIXCOLUMNS` is linear over XOR (for every matrix), and four applications with the matrix of R71 give
the identity (log entry 6). -/
def Obligations.RoundOperationAlgebra : Prop :=
  (∀ W : Block Byte, shiftRows (shiftRows (shiftRows (shiftRows W))) = W) ∧
  (∀ (p : Params) (W : Block Byte), shiftRows (subBytes p W) = subBytes p (shiftRows W)) ∧
  (∀ (p : Params) (A B : Block Byte),
    mixColumns p (Block.ofFn fun m => A.get m ^^^ B.get m) =
      Block.ofFn fun m => (mixColumns p A).get m ^^^ (mixColumns p B).get m) ∧
  (∀ (p : Params) (W : Block Byte), p.mixMatrix = mixMatrix →
    mixColumns p (mixColumns p (mixColumns p (mixColumns p W))) = W)

/-- R73 and R74: `ROUND` is SubBytes, ShiftRows, and MixColumns except in round 9; `TRACE` has ten states,
each the round of the one before, the first of `TOCM(IN)`. R75 (a) is its last line. -/
def Obligations.TraceIsTenRounds : Prop :=
  ∀ (p : Params) (inp : Block Byte), ∃ T : Fin 10 → Block Byte,
    trace p inp = [T 0, T 1, T 2, T 3, T 4, T 5, T 6, T 7, T 8, T 9] ∧
    T 0 = mixColumns p (shiftRows (subBytes p (toCM inp))) ∧
    (∀ i : Fin 10, 1 ≤ i.val → i.val < 9 →
      T i = mixColumns p (shiftRows (subBytes p (T ⟨i.val - 1, by omega⟩)))) ∧
    T 9 = shiftRows (subBytes p (T 8))

/-- R75 (d), for the matrix of R71 (log entry 6): equal input bytes stay equal, and the run is the iteration
of `SUB`. -/
def Obligations.EqualBytesStayEqual : Prop :=
  ∀ (p : Params) (v : Byte), p.mixMatrix = mixMatrix →
    ∀ i : Nat, i < 10 → (trace p (equalBytes v))[i]? = some (equalBytes (Nat.repeat (subByte p) (i + 1) v))

/-- R75 (b), for the default contents (log entries 5, 6): each round operation is a bijection, so `TRACE`
loses no information: two inputs with the same final state are the same. -/
def Obligations.TraceLosesNoInformation : Prop :=
  Function.Bijective (subBytes defaultParams) ∧ Function.Bijective (shiftRows (α := Byte)) ∧
  Function.Bijective (mixColumns defaultParams) ∧
  ∀ a b : Block Byte, (trace defaultParams a)[9]? = (trace defaultParams b)[9]? → a = b

/-! ## Commands (44_controller.md section 2) -/

/-- R77: in `LOAD`, `LDB d` writes `d` at `TPOS(ICNT)` and counts it while `ICNT < 16`; with `ICNT = 16` it
raises `LENGTH` and writes neither `ST` nor `ICNT`. It completes from every such state. Sixteen of them from
`ICNT = 0` leave `ST = TOCM(IN)` and `ICNT = 16`, and change nothing else. -/
def Obligations.LoadByteEffect : Prop :=
  (∀ (inp : Block Byte) (s : State), legal s = true → s.fsm = .load → s.icnt = 0 →
    loadEach inp.toList s = .next { s with st := valued (toCM inp), icnt := 16 }) ∧
  ∀ (d : Byte) (s : State), legal s = true → s.fsm = .load →
    (s.icnt.toNat < 16 →
      ∃ (st' : Block (Option Byte)) (icnt' : BitVec 5),
        exec (.ldb d) s = .next { s with st := st', icnt := icnt' } ∧
        icnt'.toNat = s.icnt.toNat + 1 ∧
        ∀ m : Fin 16, st'.get m =
          if m.val = 4 * (s.icnt.toNat % 4) + s.icnt.toNat / 4 then some d else s.st.get m) ∧
    (s.icnt.toNat = 16 → exec (.ldb d) s = .next { s with err := .length, fsm := .fault })

/-- R78: in `LOAD`, `RUN` with `ICNT = 16` enters `BUSY` at `upc = (0, 0)`; with `ICNT < 16` it raises
`LENGTH`. It writes no byte of `ST` and emits nothing. It completes from every such state. -/
def Obligations.RunEffect : Prop :=
  ∀ s : State, legal s = true → s.fsm = .load →
    (s.icnt.toNat = 16 → exec .run s = .next { s with fsm := .busy, rnd := 0, ph := 0 }) ∧
    (s.icnt.toNat < 16 → exec .run s = .next { s with err := .length, fsm := .fault })

/-- R92: `LENGTH` is raised in exactly two cases, an `LDB` accepted with `ICNT = 16` and a `RUN` accepted
with `ICNT < 16`. -/
def Obligations.LengthRaisedExactly : Prop :=
  ∀ (i : Instr) (s t : State), exec i s = .next t → s.fsm ≠ .fault →
    (t.fsm = .fault ↔
      ((∃ d, i = .ldb d) ∧ s.fsm = .load ∧ s.icnt.toNat = 16) ∨
      (i = .run ∧ s.fsm = .load ∧ s.icnt.toNat < 16)) ∧
    (t.fsm = .fault → t.err = .length)

/-- R94 and R97: a reserved word accepted in `LOAD` raises `ILLCMD`, whatever `ICNT` is (R96): the step
writes `ERR` and `FSM` only; in another mode it raises nothing. That `host` and `strobe` move on as at every
step is the model's (log entries 2 and 10). -/
def Obligations.ReservedWordRaisesIllcmd : Prop :=
  ∀ (s : State) (w : CmdWord) (rest : List HostInput),
    s.host = .drive false (some w) :: rest → 0x101 ≤ w.toNat →
    (legal s = true → s.fsm = .load →
      step s = .next { s with err := .illcmd, fsm := .fault, host := rest, strobe := none }) ∧
    (s.fsm ≠ .load → ∀ t, step s = .next t →
      t.fsm ≠ .fault ∧ (t.err = s.err ∨ t.err = .none) ∧ (s.fsm = .busy → legal s = true → t.err = s.err))

/-- R76: commands are accepted only in `LOAD`, and `cmd_ready` is 1 exactly then; outside `LOAD` a command
is not accepted and the model stops by name (log entry 3). -/
def Obligations.CommandsOnlyInLoad : Prop :=
  ∀ s : State, legal s = true →
    (s.cmdReady = true ↔ s.fsm = .load) ∧
    (s.fsm ≠ .load → (∀ d, exec (.ldb d) s = .fault .commandNotAccepted) ∧
      exec .run s = .fault .commandNotAccepted) ∧
    (s.fsm = .load → (∀ d, ∃ t, exec (.ldb d) s = .next t) ∧ ∃ t, exec .run s = .next t)

/-- What LDB and RUN leave unchanged when they go on: `upc`, `OUT`, the strobe, the host's entries, the
multiplier probe, every ROM cell, and every byte of `ST` but the one LDB writes; RUN leaves `ICNT`; a
command that raises a fault leaves `ST` and `ICNT` (R97). -/
def Obligations.CommandFrame : Prop :=
  ∀ (i : Instr) (s t : State), ((∃ d, i = .ldb d) ∨ i = .run) → exec i s = .next t →
    t.rnd = s.rnd ∧ t.ph = s.ph ∧ t.out = s.out ∧ t.strobe = s.strobe ∧ t.host = s.host ∧
    t.gfOut = s.gfOut ∧ (∀ a : Byte, memReadSbox t.params a = memReadSbox s.params a) ∧
    (∀ a : Fin 16, memReadMix t.params a = memReadMix s.params a) ∧
    (∀ n : Fin 16, n.val ≠ s.icnt.toNat → t.st.get (tpos n) = s.st.get (tpos n)) ∧
    (i = .run → t.st = s.st ∧ t.icnt = s.icnt) ∧
    (t.fsm = .fault → t.st = s.st ∧ t.icnt = s.icnt) ∧
    (t.fsm ≠ .fault → t.err = s.err)

/-! ## Micro-steps (44_controller.md section 3) -/

/-- R80 with R69: in `BUSY` at phase 0, on sixteen bytes with values, `SUB` replaces every byte `m` by the
ROM cell at line `b[3:0]`, place `b[7:4]`, and goes to `(RND, 1)`; nothing else changes. -/
def Obligations.SubBytesEffect : Prop :=
  ∀ (s : State) (W : Block Byte), legal s = true → s.fsm = .busy → s.ph = 0 → s.st = valued W →
    ∃ N : Block Byte, exec .sub s = .next { s with st := valued N, ph := 1 } ∧
      ∀ m : Fin 16, N.get m =
        (s.params.sboxRom.get (nibbleIndex (loNibble (W.get m)))).get (nibbleIndex (hiNibble (W.get m)))

/-- R81 with R70: in `BUSY` at phase 1, `SHR` rotates row `r` left by `r`; before round 9 it goes to
`(RND, 2)`; in round 9 it ends the round: the emission, `(10, 0)` and `DONE` (R83). The strobe clause is
R87's. -/
def Obligations.ShiftRowsEffect : Prop :=
  ∀ (s : State) (W : Block Byte), legal s = true → s.fsm = .busy → s.ph = 1 → s.st = valued W →
    ∃ N : Block Byte,
      (∀ r j : Fin 4, N.get (cell r j) = W.get (cell r ⟨(j.val + r.val) % 4, by omega⟩)) ∧
      (s.rnd.toNat < 9 → exec .shr s = .next { s with st := valued N, ph := 2 }) ∧
      (s.rnd.toNat = 9 → exec .shr s = .next
        { s with st := valued N, rnd := 10, ph := 0, fsm := .done,
                 out := s.out ++ [⟨9, valued N⟩], strobe := some 9 })

/-- R82 with R72: in `BUSY` at phase 2, `MIX` makes each byte the XOR of the four products of a matrix row
and a column, all from the old bytes; the round ends with its emission and goes to `(RND + 1, 0)` (R83).
The strobe clause is R87's. -/
def Obligations.MixColumnsEffect : Prop :=
  ∀ (s : State) (W : Block Byte), legal s = true → s.fsm = .busy → s.ph = 2 → s.st = valued W →
    ∃ (N : Block Byte) (r' : BitVec 4),
      (∀ i j : Fin 4, N.get (cell i j) =
        gfmul (s.params.mixMatrix.get (cell i 0)) (W.get (cell 0 j)) ^^^
        gfmul (s.params.mixMatrix.get (cell i 1)) (W.get (cell 1 j)) ^^^
        gfmul (s.params.mixMatrix.get (cell i 2)) (W.get (cell 2 j)) ^^^
        gfmul (s.params.mixMatrix.get (cell i 3)) (W.get (cell 3 j))) ∧
      r'.toNat = s.rnd.toNat + 1 ∧
      exec .mix s = .next
        { s with st := valued N, rnd := r', ph := 0,
                 out := s.out ++ [⟨s.rnd, valued N⟩], strobe := some s.rnd }

/-- The micro-op that `PH` names completes from every `BUSY` state of R22, bytes without a value among them:
a byte of the result has no value exactly when one it is computed from has none (the model's choice, log
entry 1; from reset a micro-step meets sixteen values, R11). -/
def Obligations.MicroOpsCompleteOnAnyBytes : Prop :=
  ∀ s : State, legal s = true → s.fsm = .busy →
    (s.ph = 0 → ∃ t, exec .sub s = .next t ∧
      ∀ m : Fin 16, (t.st.get m = none ↔ s.st.get m = none)) ∧
    (s.ph = 1 → ∃ t, exec .shr s = .next t ∧
      ∀ r j : Fin 4, t.st.get (cell r j) = s.st.get (cell r ⟨(j.val + r.val) % 4, by omega⟩)) ∧
    (s.ph = 2 → ∃ t, exec .mix s = .next t ∧
      ∀ i j : Fin 4, (t.st.get (cell i j) = none ↔ ∃ k : Fin 4, s.st.get (cell k j) = none))

/-- What SUB, SHR and MIX leave unchanged when they go on: `ICNT`, `ERR`, the host's entries, the multiplier
probe, every ROM cell, every earlier emission; SUB also `RND`, `FSM`, `OUT` and the strobe, SHR also those
before round 9, MIX also `FSM`. -/
def Obligations.MicroOpFrame : Prop :=
  ∀ (i : Instr) (s t : State), (i = .sub ∨ i = .shr ∨ i = .mix) → exec i s = .next t →
    t.icnt = s.icnt ∧ t.err = s.err ∧ t.host = s.host ∧ t.gfOut = s.gfOut ∧
    (∀ a : Byte, memReadSbox t.params a = memReadSbox s.params a) ∧
    (∀ a : Fin 16, memReadMix t.params a = memReadMix s.params a) ∧
    (∃ es, t.out = s.out ++ es ∧ es.length ≤ 1) ∧
    (i = .sub ∨ (i = .shr ∧ s.rnd.toNat < 9) →
      t.rnd = s.rnd ∧ t.fsm = s.fsm ∧ t.out = s.out ∧ t.strobe = s.strobe) ∧
    (i = .mix → t.fsm = s.fsm)

/-- The sequence is hardwired (R79): a micro-op that `(FSM, PH)` does not select is refused by name (log
entry 11), and from a combination outside R22 no instruction has a meaning and no step but a reset is
defined (U4, log entry 4). -/
def Obligations.NothingOutsideTheSequence : Prop :=
  ∀ s : State,
    (legal s = true → ¬(s.fsm = .busy ∧ s.ph = 0) → exec .sub s = .refused .microOpNotSelected) ∧
    (legal s = true → ¬(s.fsm = .busy ∧ s.ph = 1) → exec .shr s = .refused .microOpNotSelected) ∧
    (legal s = true → ¬(s.fsm = .busy ∧ s.ph = 2) → exec .mix s = .refused .microOpNotSelected) ∧
    (legal s = false → (∀ d, exec (.ldb d) s = .refused .unreachableState) ∧
      exec .run s = .refused .unreachableState ∧
      (∀ v, exec (.gfmul1 v) s = .refused .unreachableState ∧ exec (.gfmul2 v) s = .refused .unreachableState ∧
        exec (.gfmul3 v) s = .refused .unreachableState) ∧ exec .sub s = .refused .unreachableState ∧
      exec .shr s = .refused .unreachableState ∧ exec .mix s = .refused .unreachableState ∧
      ((∀ h ∈ s.host, quiet h = true) → step s = .refused .unreachableState))

/-! ## Steps -/

/-- A step runs the decoded instruction. In `LOAD` the next presented word's instruction runs, edges without
a word before it left out; in `BUSY` the micro-op of `PH` runs whatever the host drives short of a reset
(R76, R79). That the host list moves on past the edge is the model's (log entry 2), and that the strobe of the
last step ends is log entry 10's. A coefficient code is run on the multiplier by itself (log entry 8), and no
step runs one (R9): what a step runs is `LDB`, `RUN`, `SUB`, `SHR` or `MIX`. -/
def Obligations.StepRunsDecoded : Prop :=
  ∀ (s : State) (i : Instr),
    (∀ before w rest, legal s = true → s.fsm = .load → (∀ h ∈ before, h = .drive false none) →
      s.host = before ++ .drive false (some w) :: rest → decode (.cw w) = .ok i → i.wellFormed = true →
      step s = exec i { s with host := rest, strobe := none } ∧ ((∃ d, i = .ldb d) ∨ i = .run)) ∧
    (legal s = true → s.fsm = .busy → headQuiet s = true →
      decode (.uop s.ph) = .ok i → i.wellFormed = true →
      step s = exec i { s with host := s.host.tail, strobe := none } ∧ (i = .sub ∨ i = .shr ∨ i = .mix)) ∧
    (∀ c v, decode (.coef c v) = .ok i → i.wellFormed = true → runCode (.coef c v) s = exec i s)

/-- R9: every step is a command accepted, a micro-step, or a reset edge (R105), and nothing else. A command
is accepted in `LOAD` only, with edges that have no word on them left out before it; a micro-step happens in
`BUSY` only, at the next edge; before a reset that a step takes, every edge left out is no reset. That the
host list moves on (log entry 2), that the strobe of the last step ends and is clear after a reset (log entry
10), and that a reset keeps the probe (log entry 8) is the model's. -/
def Obligations.EveryStepIsACommandAMicroStepOrAReset : Prop :=
  ∀ s t : State, step s = .next t →
    (legal s = true ∧ s.fsm = .load ∧ ∃ before w rest, (∀ h ∈ before, h = .drive false none) ∧
      s.host = before ++ .drive false (some w) :: rest ∧
      runCode (.cw w) { s with host := rest, strobe := none } = .next t) ∨
    (legal s = true ∧ s.fsm = .busy ∧ headQuiet s = true ∧
      runCode (.uop s.ph) { s with host := s.host.tail, strobe := none } = .next t) ∨
    (∃ before c rest, (∀ h ∈ before, quiet h = true) ∧ s.host = before ++ .drive true c :: rest ∧
      t = applyReset { s with host := rest })

/-- R84 and R97: in `DONE` and `FAULT` the controller has no step; R76: in `LOAD` with nothing presented it
has none. With no reset among what the host drives the model stops by name (log entry 3): in `LOAD` when no
edge has a word; in `DONE` and `FAULT` in any case, and a word presented there is what is stuck (U10). -/
def Obligations.NoStepWithoutCommandOrRun : Prop :=
  ∀ s : State, legal s = true → (∀ h ∈ s.host, quiet h = true) →
    (s.fsm = .load → (∀ h ∈ s.host, h.cmd = none) → step s = .fault .awaitingCommand) ∧
    (s.fsm = .done → (∀ h ∈ s.host, h.cmd = none) → step s = .fault .runComplete) ∧
    (s.fsm = .fault → (∀ h ∈ s.host, h.cmd = none) → step s = .fault .runFaulted) ∧
    (s.fsm = .done ∨ s.fsm = .fault → (∃ h ∈ s.host, h.cmd ≠ none) → step s = .fault .commandNotAccepted)

/-- R105 and R106: at an edge with `rst = 1` the block takes the reset state, from ANY state, whatever
command is presented; the ROMs are not touched and `ST` has no value. That the strobe is clear after it (log
entry 10) and that `host` and `gfOut` stay (log entries 2 and 8) is the model's. -/
def Obligations.ResetFromAnyState : Prop :=
  ∀ (s : State) (presented : Option CmdWord) (rest : List HostInput),
    s.host = .drive true presented :: rest →
    step s = .next { State.reset with params := s.params, host := rest, gfOut := s.gfOut }

/-- R105: a reset is reached at whatever edge the host drives it, from ANY state and with whatever words at
the port before it (R76): after the steps the block has at the edges before, no more than one an edge and
each with a next state, the next step is the reset. In `DONE`, in `FAULT` and outside the table of R22 there
is no step before it. (The list is log entry 2; that the strobe is clear after a reset is log entry 10; the
probe is log entry 8.) -/
def Obligations.ResetIsAlwaysReached : Prop :=
  ∀ (s : State) (before rest : List HostInput) (presented : Option CmdWord),
    (∀ h ∈ before, quiet h = true) → s.host = before ++ .drive true presented :: rest →
    ∃ k, k ≤ before.length ∧ ((legal s = false ∨ s.fsm = .done ∨ s.fsm = .fault) → k = 0) ∧
      steps (k + 1) s = .next { State.reset with params := s.params, host := rest, gfOut := s.gfOut }

/-- R21: the values of the reset state; a reset leaves the ROMs as they are. (The strobe, the host list and
the probe have no row there: log entries 10, 2 and 8.) -/
def Obligations.ResetValues : Prop :=
  (∀ i : Fin 16, State.reset.st.get i = none) ∧ State.reset.rnd = 0 ∧ State.reset.ph = 0 ∧
  State.reset.icnt = 0 ∧ State.reset.fsm = .load ∧ State.reset.err = .none ∧
  State.reset.status = 0x0000 ∧ State.reset.out = [] ∧
  (∀ s : State, (applyReset s).params = s.params)

/-- R84, R99 and R105: only reset leaves `DONE` or `FAULT`: from there a step that goes on IS a reset, at an
edge the host drives one. (That the strobe is clear after it is log entry 10; the list and the probe are log
entries 2 and 8.) -/
def Obligations.OnlyResetLeavesDoneAndFault : Prop :=
  ∀ s t : State, (s.fsm = .done ∨ s.fsm = .fault) → step s = .next t →
    ∃ before c rest, s.host = before ++ .drive true c :: rest ∧ (∀ h ∈ before, quiet h = true) ∧
      t = { State.reset with params := s.params, host := rest, gfOut := s.gfOut }

/-- R98: a fault is entered only from `LOAD`, with nothing ever emitted, and writes `ERR` and `FSM` only;
the cause is the one the command can raise (R96). That `host` moves on (log entry 2) and the strobe is clear
(log entry 10) is the model's, as at every step. -/
def Obligations.FaultsArePrecise : Prop :=
  ∀ s t : State, step s = .next t → s.fsm ≠ .fault → t.fsm = .fault →
    s.fsm = .load ∧ s.out = [] ∧
    ∃ before w rest, s.host = before ++ .drive false (some w) :: rest ∧
      (∀ h ∈ before, h = .drive false none) ∧
      t = { s with err := t.err, fsm := .fault, host := rest, strobe := none } ∧
      (t.err = if w.toNat ≤ 0x100 then .length else .illcmd)

/-- R19: no step changes the constants: neither ROM, at any address. -/
def Obligations.ConstantsNeverChange : Prop :=
  ∀ s t : State, step s = .next t →
    (∀ a : Byte, memReadSbox t.params a = memReadSbox s.params a) ∧
    (∀ a : Fin 16, memReadMix t.params a = memReadMix s.params a)

/-- R83 and R87: `out_valid` is 1 after exactly the steps that emit, and then `out_round` and the bytes at
the output are those of the emission just made; `OUT` only grows, by at most that one. (How the strobe is
held is log entry 10; a reset is left out.) -/
def Obligations.StrobeShowsTheEmission : Prop :=
  ∀ s t : State, step s = .next t → ownStep s = true →
    (t.outValid = true ↔ t.out.length = s.out.length + 1) ∧
    (t.outValid = true → t.outRound = some s.rnd ∧ t.out = s.out ++ [⟨s.rnd, t.st⟩] ∧
      (∀ i : Fin 16, t.outLane i = t.st.get i)) ∧
    (t.outValid = false → t.outRound = none ∧ t.out = s.out) ∧
    (t.outValid = true ↔
      s.fsm = .busy ∧ ((s.ph = 2 ∧ s.rnd.toNat < 9) ∨ (s.ph = 1 ∧ s.rnd.toNat = 9)))

/-- R79 and R88: nothing the host drives, short of reset, can pause, cancel or redirect a run: from every
`BUSY` state of R22 the step goes on, and it is the same, but for the host's own list, as with no host at
all. One edge of the list passes (log entry 2). -/
def Obligations.HostCannotDisturbARun : Prop :=
  ∀ s : State, legal s = true → s.fsm = .busy → headQuiet s = true →
    ∃ t, step { s with host := [] } = .next t ∧ step s = .next { t with host := s.host.tail }

/-! ## What the host sees -/

/-- R16: the fields of `STATUS`, bit by bit. -/
def Obligations.StatusFields : Prop :=
  ∀ s : State,
    (s.status.extractLsb' 0 2).toNat = (match s.fsm with | .load => 0 | .busy => 1 | .done => 2 | .fault => 3) ∧
    (s.status.extractLsb' 2 2).toNat =
      (match s.err with | .none => 0 | .length => 1 | .illcmd => 2 | .unused => 3) ∧
    s.status.extractLsb' 4 5 = s.icnt ∧ s.status.extractLsb' 9 4 = s.rnd ∧
    s.status.extractLsb' 13 2 = s.ph ∧ s.status.getLsbD 15 = false

/-- R27 (b) and R111: with sixteen values, byte `i` of `ST` is in bits `8*i+7 : 8*i` of the bus; with a byte
missing the bus has no value. -/
def Obligations.OutputBusLanes : Prop :=
  ∀ s : State,
    (∀ v, s.outBus = some v → ∀ i : Fin 16, s.outLane i = some (v.extractLsb' (8 * i.val) 8)) ∧
    (s.outBus = none ↔ ∃ i : Fin 16, s.outLane i = none)

/-! ## Invariants and whole runs -/

/-- The invariant holds after reset, whatever the host is about to drive and whatever the ROMs hold. Its
clause on the strobe holds there because the strobe is clear after a reset, which is the model's choice (log
entry 10). -/
def Obligations.ResetMeetsTheInvariant : Prop :=
  ∀ (h : List HostInput) (p : Params),
    Inv { State.reset with host := h, params := p } ∧ Explained { State.reset with host := h, params := p }

/-- Every step keeps the invariant: the table of R22, the written bytes of R11, the emissions in order and
whole (R18), `ST` equal to the last emission between rounds (R83), and what the strobe shows (R87). In the
case of a reset that last part rests on the strobe being clear after it, which is the model's choice (log
entry 10). -/
def Obligations.StepKeepsTheInvariant : Prop :=
  ∀ s t : State, Inv s → step s = .next t → Inv t

/-- Every step keeps to the source's computation: if an input explains the state (the bytes loaded so far
stand where TOCM puts them; `OUT` is the part of `TRACE` done; `ST` is the state of the phase), the SAME
input explains the next, except after a reset, and except that an `LDB` counted in must carry the input's
next byte (`pending` is what the host drives from the edge of the step on, log entry 2). And if some input explains the state, some input explains the next, whatever the step is (R77 to
R83). -/
def Obligations.StepFollowsTheTrace : Prop :=
  ∀ s t : State, step s = .next t →
    (Explained s → Explained t) ∧
    ∀ inp : Block Byte, FollowsInput inp s → ownStep s = true →
      (∀ (w : CmdWord) (rest : List HostInput) (hi : s.icnt.toNat < 16), s.fsm = .load →
        pending s = .drive false (some w) :: rest → w.toNat < 0x100 →
        (inp.get ⟨s.icnt.toNat, hi⟩).toNat = w.toNat) →
      FollowsInput inp t

/-- Three micro-steps are one round, two in round 9 (R79): from the start of a round on sixteen values, they
leave `ROUND(RND, ST)`, emit it, and go to the next round or to `DONE`. (The strobe is log entry 10.) -/
def Obligations.MicroStepsMakeARound : Prop :=
  ∀ (s : State) (W : Block Byte) (i : Fin 10), legal s = true → s.fsm = .busy → s.ph = 0 →
    s.rnd.toNat = i.val → s.st = valued W → s.host = [] →
    steps (if i.val < 9 then 3 else 2) s = .next
      { s with st := valued (Sys2Proof.round s.params i W), rnd := s.rnd + 1, ph := 0,
               fsm := if i.val < 9 then .busy else .done,
               out := s.out ++ [⟨s.rnd, valued (Sys2Proof.round s.params i W)⟩], strobe := some s.rnd }

/-- R86: a run ends. From any `BUSY` state of R22, with no reset among what the host drives, exactly the
micro-steps left of the 29 lead to `DONE`, and none earlier. -/
def Obligations.EveryRunEnds : Prop :=
  ∀ s : State, legal s = true → s.fsm = .busy → (∀ h ∈ s.host, quiet h = true) →
    microStepsDone s < 29 ∧
    (∃ t, steps (29 - microStepsDone s) s = .next t ∧ t.fsm = .done ∧ t.out.length = 10) ∧
    ∀ k, k < 29 - microStepsDone s → ∃ u, steps k s = .next u ∧ u.fsm = .busy

/-- R85, for every ROM contents: from reset, sixteen `LDB` and `RUN` are accepted for every choice of the
sixteen bytes, and after exactly 29 micro-steps the controller is in `DONE` with `OUT` the ten emissions of
`TRACE(IN)` and `ST` the last of its states. (The host list is log entry 2.) -/
def Obligations.CompleteRunComputesTrace : Prop :=
  ∀ (p : Params) (inp : Block Byte),
    (∃ b, steps 17 { State.reset with params := p, host := loadAndRun inp } = .next b ∧
      b.fsm = .busy ∧ b.st = valued (toCM inp)) ∧
    (∀ k, k < 29 → ∃ u, steps (17 + k) { State.reset with params := p, host := loadAndRun inp } = .next u ∧
      u.fsm = .busy) ∧
    ∃ t W, steps (17 + 29) { State.reset with params := p, host := loadAndRun inp } = .next t ∧
      t.fsm = .done ∧ t.out = emissionsFrom 0 (trace p inp) ∧ (trace p inp)[9]? = some W ∧
      t.st = valued W
end

