-- ==== Sys2Proof/Laws/Block.lean ====
section
/-! SUPPORT. The laws of the sixteen-element and four-element groups and of their indices. -/

namespace Sys2Proof

@[ext] theorem Block.ext_get {α : Type} {a b : Block α} (h : ∀ i, a.get i = b.get i) : a = b := by
  cases a; cases b
  have g := fun i => h i
  simp only [Block.mk.injEq]
  exact ⟨g 0, g 1, g 2, g 3, g 4, g 5, g 6, g 7, g 8, g 9, g 10, g 11, g 12, g 13, g 14, g 15⟩

/-- A fact about every index is sixteen facts. -/
theorem forall_fin16 {P : Fin 16 → Prop} (h0 : P 0) (h1 : P 1) (h2 : P 2) (h3 : P 3) (h4 : P 4)
    (h5 : P 5) (h6 : P 6) (h7 : P 7) (h8 : P 8) (h9 : P 9) (h10 : P 10) (h11 : P 11) (h12 : P 12)
    (h13 : P 13) (h14 : P 14) (h15 : P 15) : ∀ i, P i := by
  intro i
  fin_cases i <;> assumption

@[simp] theorem Block.get_ofFn {α : Type} (f : Fin 16 → α) (i : Fin 16) : (Block.ofFn f).get i = f i := by
  revert i; exact forall_fin16 rfl rfl rfl rfl rfl rfl rfl rfl rfl rfl rfl rfl rfl rfl rfl rfl

@[simp] theorem Block.get_set {α : Type} (b : Block α) (i m : Fin 16) (v : α) :
    (b.set i v).get m = if m = i then v else b.get m := Block.get_ofFn _ m

@[simp] theorem Block.get_map {α β : Type} (f : α → β) (b : Block α) (i : Fin 16) :
    (b.map f).get i = f (b.get i) := Block.get_ofFn _ i

@[simp] theorem rowOf_cell (r c : Fin 4) : rowOf (cell r c) = r := by
  apply Fin.ext; simp only [rowOf, cell]; omega

@[simp] theorem colOf_cell (r c : Fin 4) : colOf (cell r c) = c := by
  apply Fin.ext; simp only [colOf, cell]; omega

@[simp] theorem cell_rowOf_colOf (m : Fin 16) : cell (rowOf m) (colOf m) = m := by
  apply Fin.ext; simp only [rowOf, colOf, cell]; omega

@[simp] theorem Block.get_ofCells {α : Type} (f : Fin 4 → Fin 4 → α) (r c : Fin 4) :
    (Block.ofCells f).get (cell r c) = f r c := by
  rw [Block.ofCells, Block.get_ofFn, rowOf_cell, colOf_cell]

/-- Two blocks are equal when they agree at every row and column. -/
theorem Block.ext_cell {α : Type} {a b : Block α} (h : ∀ r c, a.get (cell r c) = b.get (cell r c)) :
    a = b := by
  apply Block.ext_get
  intro i
  rw [← cell_rowOf_colOf i]
  exact h _ _

@[simp] theorem tpos_tpos (n : Fin 16) : tpos (tpos n) = n := by
  apply Fin.ext; simp only [tpos]; omega

theorem tpos_injective : Function.Injective tpos := fun a b h => by
  rw [← tpos_tpos a, h, tpos_tpos]

/-- `TPOS` is `TOCM` solved for the destination (R65). -/
@[simp] theorem toCM_get_tpos {α : Type} (inp : Block α) (n : Fin 16) : (toCM inp).get (tpos n) = inp.get n := by
  have h : tpos n = cell (colOf n) (rowOf n) := by
    apply Fin.ext; simp only [tpos, cell, colOf, rowOf]
  rw [h, toCM, Block.get_ofCells, cell_rowOf_colOf]

@[simp] theorem toCM_get_cell {α : Type} (inp : Block α) (i j : Fin 4) :
    (toCM inp).get (cell i j) = inp.get (cell j i) := Block.get_ofCells _ i j

@[simp] theorem shiftRows_get_cell {α : Type} (W : Block α) (r j : Fin 4) :
    (shiftRows W).get (cell r j) = W.get (cell r ⟨(j.val + r.val) % 4, by omega⟩) :=
  Block.get_ofCells _ r j

@[simp] theorem mixColumns_get_cell (p : Params) (W : Block Byte) (i j : Fin 4) :
    (mixColumns p W).get (cell i j) = dot (mixRow p i) (col W j) := Block.get_ofCells _ i j

@[simp] theorem subBytes_get (p : Params) (W : Block Byte) (m : Fin 16) :
    (subBytes p W).get m = subByte p (W.get m) := Block.get_map _ W m

/-! On a state whose bytes all have values, the lane operations are the pure functions. -/

theorem subLanes_some (p : Params) (W : Block Byte) :
    subLanes p (W.map some) = (subBytes p W).map some := by
  ext i; simp [subLanes]

theorem shiftLanes_some (W : Block Byte) : shiftLanes (W.map some) = (shiftRows W).map some := by
  apply Block.ext_cell; intro r c; simp [shiftLanes]

theorem mixLanes_some (p : Params) (W : Block Byte) :
    mixLanes p (W.map some) = (mixColumns p W).map some := by
  apply Block.ext_cell; intro r c
  simp [mixLanes, mixColumns, col, Quad.all?]

end Sys2Proof
end

