-- ==== Sys2Proof/Laws/Decode.lean ====
section
/-! SUPPORT. The fields of a command word and of a coefficient code. -/

namespace Sys2Proof

/-- As a number, the word of `LDB d` is `d` (R38). -/
theorem ldb_word_toNat (d : Byte) : (0#1 ++ d).toNat = d.toNat := by
  rw [BitVec.toNat_append]; simp

theorem ldb_word_op (d : Byte) : (0#1 ++ d).getLsbD 8 = false := by
  rw [BitVec.getLsbD_append]; simp

theorem ldb_word_data (d : Byte) : (0#1 ++ d).extractLsb' 0 8 = d := by
  apply BitVec.eq_of_toNat_eq
  rw [BitVec.extractLsb'_toNat, ldb_word_toNat]; simp; omega

/-- The coefficient codes name the three coefficients (R43). -/
theorem ofCode?_code (c : Coef) : Coef.ofCode? c.code = some c := by cases c <;> rfl

theorem ofCode?_zero : Coef.ofCode? 0 = none := rfl

end Sys2Proof
end

