-- ==== Sys2Proof/Laws/State.lean ====
section
/-! SUPPORT. What each named update does to each field of State, true by definition. -/

namespace Sys2Proof.Machine

/-! `raise` (R97). -/

@[simp] theorem raise_st (c : Err) (s : State) : (raise c s).st = s.st := rfl
@[simp] theorem raise_rnd (c : Err) (s : State) : (raise c s).rnd = s.rnd := rfl
@[simp] theorem raise_ph (c : Err) (s : State) : (raise c s).ph = s.ph := rfl
@[simp] theorem raise_icnt (c : Err) (s : State) : (raise c s).icnt = s.icnt := rfl
@[simp] theorem raise_fsm (c : Err) (s : State) : (raise c s).fsm = .fault := rfl
@[simp] theorem raise_err (c : Err) (s : State) : (raise c s).err = c := rfl
@[simp] theorem raise_out (c : Err) (s : State) : (raise c s).out = s.out := rfl
@[simp] theorem raise_strobe (c : Err) (s : State) : (raise c s).strobe = s.strobe := rfl
@[simp] theorem raise_host (c : Err) (s : State) : (raise c s).host = s.host := rfl
@[simp] theorem raise_gfOut (c : Err) (s : State) : (raise c s).gfOut = s.gfOut := rfl
@[simp] theorem raise_params (c : Err) (s : State) : (raise c s).params = s.params := rfl

/-! `setUpc` (R12). -/

@[simp] theorem setUpc_st (r : BitVec 4) (p : BitVec 2) (s : State) : (setUpc r p s).st = s.st := rfl
@[simp] theorem setUpc_rnd (r : BitVec 4) (p : BitVec 2) (s : State) : (setUpc r p s).rnd = r := rfl
@[simp] theorem setUpc_ph (r : BitVec 4) (p : BitVec 2) (s : State) : (setUpc r p s).ph = p := rfl
@[simp] theorem setUpc_icnt (r : BitVec 4) (p : BitVec 2) (s : State) : (setUpc r p s).icnt = s.icnt := rfl
@[simp] theorem setUpc_fsm (r : BitVec 4) (p : BitVec 2) (s : State) : (setUpc r p s).fsm = s.fsm := rfl
@[simp] theorem setUpc_err (r : BitVec 4) (p : BitVec 2) (s : State) : (setUpc r p s).err = s.err := rfl
@[simp] theorem setUpc_out (r : BitVec 4) (p : BitVec 2) (s : State) : (setUpc r p s).out = s.out := rfl
@[simp] theorem setUpc_strobe (r : BitVec 4) (p : BitVec 2) (s : State) : (setUpc r p s).strobe = s.strobe := rfl
@[simp] theorem setUpc_host (r : BitVec 4) (p : BitVec 2) (s : State) : (setUpc r p s).host = s.host := rfl
@[simp] theorem setUpc_gfOut (r : BitVec 4) (p : BitVec 2) (s : State) : (setUpc r p s).gfOut = s.gfOut := rfl
@[simp] theorem setUpc_params (r : BitVec 4) (p : BitVec 2) (s : State) : (setUpc r p s).params = s.params := rfl

/-! `emit` (R18). -/

@[simp] theorem emit_st (s : State) : (emit s).st = s.st := rfl
@[simp] theorem emit_rnd (s : State) : (emit s).rnd = s.rnd := rfl
@[simp] theorem emit_ph (s : State) : (emit s).ph = s.ph := rfl
@[simp] theorem emit_icnt (s : State) : (emit s).icnt = s.icnt := rfl
@[simp] theorem emit_fsm (s : State) : (emit s).fsm = s.fsm := rfl
@[simp] theorem emit_err (s : State) : (emit s).err = s.err := rfl
@[simp] theorem emit_out (s : State) : (emit s).out = s.out ++ [{ round := s.rnd, bytes := s.st }] := rfl
@[simp] theorem emit_strobe (s : State) : (emit s).strobe = some s.rnd := rfl
@[simp] theorem emit_host (s : State) : (emit s).host = s.host := rfl
@[simp] theorem emit_gfOut (s : State) : (emit s).gfOut = s.gfOut := rfl
@[simp] theorem emit_params (s : State) : (emit s).params = s.params := rfl

/-! `newPeriod` (R87). -/

@[simp] theorem newPeriod_st (rest : List HostInput) (s : State) : (newPeriod rest s).st = s.st := rfl
@[simp] theorem newPeriod_rnd (rest : List HostInput) (s : State) : (newPeriod rest s).rnd = s.rnd := rfl
@[simp] theorem newPeriod_ph (rest : List HostInput) (s : State) : (newPeriod rest s).ph = s.ph := rfl
@[simp] theorem newPeriod_icnt (rest : List HostInput) (s : State) : (newPeriod rest s).icnt = s.icnt := rfl
@[simp] theorem newPeriod_fsm (rest : List HostInput) (s : State) : (newPeriod rest s).fsm = s.fsm := rfl
@[simp] theorem newPeriod_err (rest : List HostInput) (s : State) : (newPeriod rest s).err = s.err := rfl
@[simp] theorem newPeriod_out (rest : List HostInput) (s : State) : (newPeriod rest s).out = s.out := rfl
@[simp] theorem newPeriod_strobe (rest : List HostInput) (s : State) : (newPeriod rest s).strobe = none := rfl
@[simp] theorem newPeriod_host (rest : List HostInput) (s : State) : (newPeriod rest s).host = rest := rfl
@[simp] theorem newPeriod_gfOut (rest : List HostInput) (s : State) : (newPeriod rest s).gfOut = s.gfOut := rfl
@[simp] theorem newPeriod_params (rest : List HostInput) (s : State) : (newPeriod rest s).params = s.params := rfl

/-! `applyReset` (R105). -/

@[simp] theorem applyReset_st (s : State) : (applyReset s).st = State.reset.st := rfl
@[simp] theorem applyReset_rnd (s : State) : (applyReset s).rnd = 0 := rfl
@[simp] theorem applyReset_ph (s : State) : (applyReset s).ph = 0 := rfl
@[simp] theorem applyReset_icnt (s : State) : (applyReset s).icnt = 0 := rfl
@[simp] theorem applyReset_fsm (s : State) : (applyReset s).fsm = .load := rfl
@[simp] theorem applyReset_err (s : State) : (applyReset s).err = .none := rfl
@[simp] theorem applyReset_out (s : State) : (applyReset s).out = [] := rfl
@[simp] theorem applyReset_strobe (s : State) : (applyReset s).strobe = none := rfl
@[simp] theorem applyReset_host (s : State) : (applyReset s).host = s.host := rfl
@[simp] theorem applyReset_gfOut (s : State) : (applyReset s).gfOut = s.gfOut := rfl
@[simp] theorem applyReset_params (s : State) : (applyReset s).params = s.params := rfl

/-! The table of R22 reads no strobe, no host entry, no probe, no ROM and no byte of ST. -/

@[simp] theorem legal_newPeriod (rest : List HostInput) (s : State) : legal (newPeriod rest s) = legal s := rfl

theorem legal_host (s : State) (h : List HostInput) : legal { s with host := h } = legal s := rfl

theorem legal_applyReset (s : State) : legal (applyReset s) = true := rfl

end Sys2Proof.Machine
end

