-- ==== Sys2Proof/Laws/Ops.lean ====
section
/-! SUPPORT. One lemma per shared operation: everything it can answer. -/

namespace Sys2Proof.Machine

/-- A command has its effect exactly in `LOAD`, from a row of R22 (R76). -/
theorem accept_eq_next_iff {body : State → State} {s t : State} :
    accept body s = .next t ↔ legal s = true ∧ s.fsm = .load ∧ t = body s := by
  unfold accept
  by_cases hl : legal s = false
  · simp [hl]
  · by_cases hf : s.fsm = .load
    · simp [hl, hf, eq_comm]
    · simp [hl, hf]

theorem accept_load {body : State → State} {s : State} (hl : legal s = true) (hf : s.fsm = .load) :
    accept body s = .next (body s) := accept_eq_next_iff.2 ⟨hl, hf, rfl⟩

/-- Outside `LOAD` a command is not accepted (R76). -/
theorem accept_not_load {body : State → State} {s : State} (hl : legal s = true) (hf : s.fsm ≠ .load) :
    accept body s = .fault .commandNotAccepted := by
  simp [accept, hl, hf]

/-- A micro-step happens exactly in `BUSY` at its phase, from a row of R22 (R79). -/
theorem microStep_eq_next_iff {p : BitVec 2} {body : State → State} {s t : State} :
    microStep p body s = .next t ↔ legal s = true ∧ s.fsm = .busy ∧ s.ph = p ∧ t = body s := by
  unfold microStep
  by_cases hl : legal s = false
  · simp [hl]
  · by_cases hf : s.fsm = .busy ∧ s.ph = p
    · simp [hl, hf, eq_comm]
    · rw [if_neg hl, if_neg hf]
      constructor
      · intro h; cases h
      · rintro ⟨_, h1, h2, _⟩; exact absurd ⟨h1, h2⟩ hf

theorem microStep_selected {p : BitVec 2} {body : State → State} {s : State} (hl : legal s = true)
    (hf : s.fsm = .busy) (hp : s.ph = p) : microStep p body s = .next (body s) :=
  microStep_eq_next_iff.2 ⟨hl, hf, hp, rfl⟩

/-- From outside the table of R22 neither a command nor a micro-step is defined (U4). -/
theorem accept_not_legal {body : State → State} {s : State} (hl : legal s = false) :
    accept body s = .refused .unreachableState := by
  simp [accept, hl]

theorem microStep_not_legal {p : BitVec 2} {body : State → State} {s : State} (hl : legal s = false) :
    microStep p body s = .refused .unreachableState := by
  simp [microStep, hl]

/-- The multiplier by itself answers from every row of R22, and changes the probe alone (D12). -/
theorem observeProduct_eq_next_iff {r : Byte} {s t : State} :
    observeProduct r s = .next t ↔ legal s = true ∧ t = { s with gfOut := some r } := by
  unfold observeProduct
  by_cases hl : legal s = false
  · simp [hl]
  · simp [hl, eq_comm]

theorem observeProduct_not_legal {r : Byte} {s : State} (hl : legal s = false) :
    observeProduct r s = .refused .unreachableState := by
  simp [observeProduct, hl]

/-- Loading a byte: written at `TPOS(ICNT)` and counted, or `LENGTH` (R77). -/
theorem loadByte_cases (d : Byte) (s : State) :
    (∃ h : s.icnt.toNat < 16, loadByte d s =
      { s with st := s.st.set (tpos ⟨s.icnt.toNat, h⟩) (some d), icnt := s.icnt + 1 }) ∨
    (16 ≤ s.icnt.toNat ∧ loadByte d s = raise .length s) := by
  unfold loadByte
  by_cases h : s.icnt.toNat < 16
  · exact .inl ⟨h, by simp [h]⟩
  · exact .inr ⟨by omega, by simp [h]⟩

/-- Starting a run: `BUSY` at (0, 0), or `LENGTH` (R78). -/
theorem startRun_cases (s : State) :
    (s.icnt = 16 ∧ startRun s = setUpc 0 0 { s with fsm := .busy }) ∨
    (s.icnt ≠ 16 ∧ startRun s = raise .length s) := by
  unfold startRun
  by_cases h : s.icnt = 16
  · exact .inl ⟨h, if_pos h⟩
  · exact .inr ⟨h, if_neg h⟩

/-- The end of a round: the emission, then the next round or `DONE` (R83). -/
theorem roundEnd_cases (s : State) :
    (s.rnd.toNat < 9 ∧ roundEnd s = setUpc (s.rnd + 1) 0 (emit s)) ∨
    (9 ≤ s.rnd.toNat ∧ roundEnd s = { setUpc 10 0 (emit s) with fsm := .done }) := by
  unfold roundEnd
  by_cases h : s.rnd.toNat < Config.nr - 1
  · exact .inl ⟨h, by simp [h]⟩
  · exact .inr ⟨by simpa [Config.nr] using h, by simp [h]⟩

/-- ShiftRows: on to MixColumns, or the end of round 9 (R81). -/
theorem doShr_cases (s : State) :
    (s.rnd.toNat < 9 ∧ doShr s = setUpc s.rnd 2 { s with st := shiftLanes s.st }) ∨
    (9 ≤ s.rnd.toNat ∧
      doShr s = { setUpc 10 0 (emit { s with st := shiftLanes s.st }) with fsm := .done }) := by
  unfold doShr
  by_cases h : s.rnd.toNat < Config.mixLast
  · exact .inl ⟨h, by simp [h]⟩
  · have h9 : 9 ≤ s.rnd.toNat := by simpa [Config.mixLast] using h
    refine .inr ⟨h9, ?_⟩
    obtain ⟨h', -⟩ | ⟨-, h'⟩ := roundEnd_cases { s with st := shiftLanes s.st }
    · exact absurd (show s.rnd.toNat < 9 from h') (by omega)
    · simp only [h, if_false]; exact h'

end Sys2Proof.Machine
end

