-- ==== Sys2Proof/Laws/PerInstr.lean ====
section
/-! SUPPORT. Statements made per instruction. `TableRow`: the encoding of an instruction lies in its row of
spec/opcode_table.json, and the row's word read as the table numbers it is that code. -/

namespace Sys2Proof.Laws

/-- The code space of a row ("CW", "UOP", "COEF"), its width, its match and its mask. -/
structure Row where
  space : String
  width : Nat
  pattern : Nat
  mask : Nat
deriving DecidableEq, Repr

/-- The row of each constructor, copied from spec/opcode_table.json. -/
def tableRow : Instr → Row
  | .ldb _ => ⟨"CW", 9, 0x000, 0x100⟩
  | .run => ⟨"CW", 9, 0x100, 0x1FF⟩
  | .sub => ⟨"UOP", 2, 0x0, 0x3⟩
  | .shr => ⟨"UOP", 2, 0x1, 0x3⟩
  | .mix => ⟨"UOP", 2, 0x2, 0x3⟩
  | .gfmul1 _ => ⟨"COEF", 2, 0x1, 0x3⟩
  | .gfmul2 _ => ⟨"COEF", 2, 0x2, 0x3⟩
  | .gfmul3 _ => ⟨"COEF", 2, 0x3, 0x3⟩

/-- The space, width and bits of a code. -/
def codeBits : CodeWord → String × Nat × Nat
  | .cw w => ("CW", 9, w.toNat)
  | .uop p => ("UOP", 2, p.toNat)
  | .coef c _ => ("COEF", 2, c.toNat)

/-- `encode i` is a code of the row's space and width whose bits under the mask are the pattern. -/
def TableRow.Statement (i : Instr) : Prop :=
  i.wellFormed = true ∧ (codeBits (encode i)).1 = (tableRow i).space ∧
    (codeBits (encode i)).2.1 = (tableRow i).width ∧
    (codeBits (encode i)).2.2 &&& (tableRow i).mask = (tableRow i).pattern

theorem TableRow.ldb (d : Byte) : TableRow.Statement (.ldb d) := by
  refine ⟨rfl, rfl, rfl, ?_⟩
  change (0#1 ++ d).toNat &&& 2 ^ 8 = 0
  rw [ldb_word_toNat]
  apply Nat.eq_of_testBit_eq
  intro i
  rw [Nat.testBit_and, Nat.testBit_two_pow]
  by_cases h : 8 = i
  · subst h
    simp [Nat.testBit_lt_two_pow d.isLt]
  · simp [h]

theorem TableRow.run : TableRow.Statement .run := ⟨rfl, rfl, rfl, rfl⟩

theorem TableRow.sub : TableRow.Statement .sub := ⟨rfl, rfl, rfl, rfl⟩

theorem TableRow.shr : TableRow.Statement .shr := ⟨rfl, rfl, rfl, rfl⟩

theorem TableRow.mix : TableRow.Statement .mix := ⟨rfl, rfl, rfl, rfl⟩

theorem TableRow.gfmul1 (v : Byte) : TableRow.Statement (.gfmul1 v) :=
  ⟨rfl, rfl, rfl, by simp [codeBits, encode, tableRow]⟩

theorem TableRow.gfmul2 (v : Byte) : TableRow.Statement (.gfmul2 v) :=
  ⟨rfl, rfl, rfl, by simp [codeBits, encode, tableRow]⟩

theorem TableRow.gfmul3 (v : Byte) : TableRow.Statement (.gfmul3 v) :=
  ⟨rfl, rfl, rfl, by simp [codeBits, encode, tableRow]⟩

end Sys2Proof.Laws
end

