-- ==== Sys2Proof/Laws/Step.lean ====
section
/-! SUPPORT. What a step can do, said once: every proof about all steps starts from `step_cases`. -/

namespace Sys2Proof.Machine

theorem decodeMicroOp_ok {p : BitVec 2} {i : Instr} (h : decodeMicroOp p = .ok i) :
    (p = 0 ∧ i = .sub) ∨ (p = 1 ∧ i = .shr) ∨ (p = 2 ∧ i = .mix) := by
  revert h
  unfold decodeMicroOp
  match p with
  | 0 => intro h; cases h; exact .inl ⟨rfl, rfl⟩
  | 1 => intro h; cases h; exact .inr (.inl ⟨rfl, rfl⟩)
  | 2 => intro h; cases h; exact .inr (.inr ⟨rfl, rfl⟩)
  | 3 => intro h; cases h

/-- A command word is `LDB`, `RUN` or reserved (R44). -/
theorem decodeCommand_cases (w : CmdWord) :
    (∃ d, decodeCommand w = .ok (.ldb d)) ∨ decodeCommand w = .ok .run ∨
      decodeCommand w = .error (.reservedCommand w) := by
  unfold decodeCommand
  split
  · exact .inl ⟨_, rfl⟩
  · split
    · exact .inr (.inl rfl)
    · exact .inr (.inr rfl)

/-! What `pending` leaves out, and what it finds. -/

/-- The edges left out are those with nothing due, and one is left only at an edge with something due. -/
theorem pending_split (s : State) :
    ∃ before, s.host = before ++ pending s ∧ (∀ h ∈ before, nothingDue s h = true) ∧
      ∀ h rest, pending s = h :: rest → nothingDue s h = false := by
  refine ⟨s.host.takeWhile (nothingDue s), (List.takeWhile_append_dropWhile ..).symm,
    fun h hh => List.mem_takeWhile_imp hh, fun h rest hp => ?_⟩
  have := List.head?_dropWhile_not (nothingDue s) s.host
  rw [show s.host.dropWhile (nothingDue s) = h :: rest from hp] at this
  simpa using this

/-- Edges with nothing due before one with something due are left out. -/
theorem pending_append {s : State} {before rest : List HostInput} {h : HostInput}
    (hh : s.host = before ++ h :: rest) (hb : ∀ a ∈ before, nothingDue s a = true)
    (hd : nothingDue s h = false) : pending s = h :: rest := by
  unfold pending
  rw [hh, List.dropWhile_append_of_pos hb, List.dropWhile_cons_of_neg (by simp [hd])]

/-- With nothing due at any edge there is none. -/
theorem pending_nil {s : State} (hb : ∀ a ∈ s.host, nothingDue s a = true) : pending s = [] :=
  List.dropWhile_eq_nil_iff.2 hb

theorem nothingDue_quiet {s : State} {h : HostInput} (hd : nothingDue s h = true) : quiet h = true := by
  unfold nothingDue at hd
  simp only [Bool.and_eq_true] at hd
  exact hd.1

theorem nothingDue_reset (s : State) (c : Option CmdWord) : nothingDue s (.drive true c) = false := rfl

theorem nothingDue_word {s : State} {w : CmdWord} (hl : legal s = true) (hf : s.fsm = .load) :
    nothingDue s (.drive false (some w)) = false := by
  simp [nothingDue, hl, hf]

theorem nothingDue_load {s : State} {h : HostInput} (hl : legal s = true) (hf : s.fsm = .load) :
    nothingDue s h = true ↔ h = .drive false none := by
  obtain ⟨r, c⟩ := h
  cases c <;> cases r <;> simp [nothingDue, hl, hf]

/-- In `DONE`, in `FAULT` and outside the table nothing but a reset is due. -/
theorem nothingDue_over {s : State} {h : HostInput} (hf : legal s = false ∨ s.fsm = .done ∨ s.fsm = .fault) :
    nothingDue s h = quiet h := by
  rcases hf with hf | hf | hf <;> simp [nothingDue, quiet, hf]

/-- In `BUSY` something is due at every edge (R79). -/
theorem pending_busy {s : State} (hl : legal s = true) (hf : s.fsm = .busy) : pending s = s.host := by
  cases hh : s.host with
  | nil => simp [pending, hh]
  | cons h rest => simp [pending, hh, nothingDue, hl, hf]

theorem headQuiet_of_busy {s : State} (hl : legal s = true) (hf : s.fsm = .busy) : headQuiet s = ownStep s := by
  simp only [headQuiet, ownStep, pending_busy hl hf]

/-! `fetch` by case, then `step` on what it finds. -/

theorem fetch_own {s : State} (hq : ownStep s = true) (hl : legal s = true) :
    fetch s = fetchRunning (pending s) s := by
  rcases hh : pending s with _ | ⟨⟨_ | _, c⟩, rest⟩ <;> simp_all [fetch, ownStep, quiet]

theorem fetch_command {s : State} {w : CmdWord} {rest : List HostInput} (hl : legal s = true)
    (hf : s.fsm = .load) (hh : pending s = .drive false (some w) :: rest) :
    fetch s = .issue (.cw w) (newPeriod rest s) := by
  rw [fetch_own (by simp [ownStep, hh, quiet]) hl, hh]
  simp [fetchRunning, hf]

/-- In `BUSY` the micro-op of `PH` runs whatever the host drives, and the edge passes (R79). -/
theorem fetch_busy {s : State} (hl : legal s = true) (hf : s.fsm = .busy) (hq : headQuiet s = true) :
    fetch s = .issue (.uop s.ph) (newPeriod s.host.tail s) := by
  rw [fetch_own (by rwa [← headQuiet_of_busy hl hf]) hl, pending_busy hl hf]
  simp [fetchRunning, hf]

theorem fetch_reset {s : State} {c : Option CmdWord} {rest : List HostInput}
    (hh : pending s = .drive true c :: rest) : fetch s = .reset (applyReset { s with host := rest }) := by
  simp [fetch, hh]

theorem runCode_of_ok {c : CodeWord} {i : Instr} {s : State} (hd : decode c = .ok i) :
    runCode c s = exec i s := by
  simp only [runCode, hd]

theorem runCode_of_error {c : CodeWord} {e : DecodeError} {s : State} (hd : decode c = .error e) :
    runCode c s = undecodable e s := by
  simp only [runCode, hd]

theorem step_of_issue {s t : State} {c : CodeWord} {i : Instr} (hf : fetch s = .issue c t)
    (hd : decode c = .ok i) : step s = exec i t := by
  simp only [step, hf, runCode_of_ok hd]

theorem step_of_no_instr {s t : State} {c : CodeWord} {e : DecodeError} (hf : fetch s = .issue c t)
    (hd : decode c = .error e) : step s = undecodable e t := by
  simp only [step, hf, runCode_of_error hd]

/-- Everything a step from `s` to `t` can be. -/
inductive StepKind (s t : State) : Prop where
  /-- A reset edge (R105). -/
  | reset (c : Option CmdWord) (rest : List HostInput) (hh : pending s = .drive true c :: rest)
      (ht : t = applyReset { s with host := rest })
  /-- An accepted `LDB` (R77). -/
  | ldb (w : CmdWord) (d : Byte) (rest : List HostInput) (hl : legal s = true) (hf : s.fsm = .load)
      (hh : pending s = .drive false (some w) :: rest) (hd : decodeCommand w = .ok (.ldb d))
      (ht : t = loadByte d (newPeriod rest s))
  /-- An accepted `RUN` (R78). -/
  | run (w : CmdWord) (rest : List HostInput) (hl : legal s = true) (hf : s.fsm = .load)
      (hh : pending s = .drive false (some w) :: rest) (hd : decodeCommand w = .ok .run)
      (ht : t = startRun (newPeriod rest s))
  /-- An accepted reserved word (R94). -/
  | reserved (w : CmdWord) (rest : List HostInput) (hl : legal s = true) (hf : s.fsm = .load)
      (hh : pending s = .drive false (some w) :: rest)
      (hd : decodeCommand w = .error (.reservedCommand w))
      (ht : t = raise .illcmd (newPeriod rest s))
  /-- Micro-step `SUB` (R80); an edge of the host's passes. -/
  | sub (rest : List HostInput) (hl : legal s = true) (hf : s.fsm = .busy) (hq : headQuiet s = true)
      (hh : rest = s.host.tail) (hp : s.ph = 0)
      (ht : t = doSub (newPeriod rest s))
  /-- Micro-step `SHR` (R81). -/
  | shr (rest : List HostInput) (hl : legal s = true) (hf : s.fsm = .busy) (hq : headQuiet s = true)
      (hh : rest = s.host.tail) (hp : s.ph = 1)
      (ht : t = doShr (newPeriod rest s))
  /-- Micro-step `MIX` (R82). -/
  | mix (rest : List HostInput) (hl : legal s = true) (hf : s.fsm = .busy) (hq : headQuiet s = true)
      (hh : rest = s.host.tail) (hp : s.ph = 2)
      (ht : t = doMix (newPeriod rest s))

/-- What `BUSY` issues is the micro-step of the phase (R79). -/
theorem microStep_kind {s t : State} (hl : legal s = true) (hf : s.fsm = .busy) (hq : headQuiet s = true)
    (h : step s = .next t) : StepKind s t := by
  have hfe := fetch_busy hl hf hq
  cases hd : decodeMicroOp s.ph with
  | error e =>
    rw [step_of_no_instr hfe hd] at h
    cases e <;> simp_all [undecodable, execReserved, accept]
  | ok i =>
    rw [step_of_issue hfe hd] at h
    obtain ⟨hp, rfl⟩ | ⟨hp, rfl⟩ | ⟨hp, rfl⟩ := decodeMicroOp_ok hd
    · exact .sub _ hl hf hq rfl hp (microStep_eq_next_iff.1 h).2.2.2
    · exact .shr _ hl hf hq rfl hp (microStep_eq_next_iff.1 h).2.2.2
    · exact .mix _ hl hf hq rfl hp (microStep_eq_next_iff.1 h).2.2.2

/-- What `LOAD` issues is the presented command (R76). -/
theorem command_kind {s t : State} {w : CmdWord} {rest : List HostInput} (hl : legal s = true)
    (hf : s.fsm = .load) (hh : pending s = .drive false (some w) :: rest) (h : step s = .next t) :
    StepKind s t := by
  have hfe := fetch_command hl hf hh
  obtain ⟨d, hd⟩ | hd | hd := decodeCommand_cases w
  · rw [step_of_issue hfe hd] at h; exact .ldb w d rest hl hf hh hd (accept_eq_next_iff.1 h).2.2
  · rw [step_of_issue hfe hd] at h; exact .run w rest hl hf hh hd (accept_eq_next_iff.1 h).2.2
  · rw [step_of_no_instr hfe hd] at h; exact .reserved w rest hl hf hh hd (accept_eq_next_iff.1 h).2.2

/-- Outside the table of R22 only a reset edge has a step (U4). -/
theorem step_not_legal {s : State} (hq : ownStep s = true) (hl : legal s = false) :
    step s = .refused .unreachableState := by
  rcases hh : pending s with _ | ⟨⟨_ | _, c⟩, rest⟩ <;> simp_all [step, fetch, ownStep, quiet]

/-- In `LOAD` with no word and no reset, in `DONE` and in `FAULT` the controller has no step of its own. -/
theorem step_stuck {s : State} (hq : ownStep s = true) (hl : legal s = true) (hf : s.fsm ≠ .busy)
    (hw : s.fsm = .load → pending s = []) : ∃ f, step s = .fault f := by
  have hfe := fetch_own hq hl
  cases hm : s.fsm with
  | load => simp [step, hfe, fetchRunning, hm, hw hm]
  | busy => exact absurd hm hf
  | done => simp [step, hfe, fetchRunning, stuckAfterRun, hm]
  | fault => simp [step, hfe, fetchRunning, stuckAfterRun, hm]

/-- The one inversion lemma of `step`: a command, a micro-step or a reset (R9). -/
theorem step_cases {s t : State} (h : step s = .next t) : StepKind s t := by
  by_cases hq : ownStep s = true
  · cases hl : legal s with
    | false => rw [step_not_legal hq hl] at h; cases h
    | true =>
      by_cases hf : s.fsm = .busy
      · exact microStep_kind hl hf (by rwa [headQuiet_of_busy hl hf]) h
      by_cases hw : s.fsm = .load → pending s = []
      · obtain ⟨f, hs⟩ := step_stuck hq hl hf hw
        rw [hs] at h; cases h
      · obtain ⟨hm, hne⟩ := Classical.not_imp.1 hw
        obtain ⟨_, _, _, hd⟩ := pending_split s
        rcases hh : pending s with _ | ⟨⟨_ | _, _ | w⟩, rest⟩
        · exact absurd hh hne
        · have := hd _ _ hh
          rw [(nothingDue_load hl hm).2 rfl] at this
          cases this
        · exact command_kind hl hm hh h
        all_goals simp [ownStep, hh, quiet] at hq
  · rcases hh : pending s with _ | ⟨⟨_ | _, c⟩, rest⟩
    · simp [ownStep, hh] at hq
    · simp [ownStep, hh, quiet] at hq
    · simp only [step, fetch_reset hh] at h
      exact .reset c rest hh (by cases h; rfl)

end Sys2Proof.Machine
end

