-- ==== Sys2Proof/Tests/Slice0.lean ====
section
/-! SUPPORT. Tests. Expected values come from spec/95_test_vectors.md and the rules named beside them;
the witnesses at the end show, for each obligation with hypotheses, a case that meets them. -/

namespace Sys2Proof.Tests

open Sys2Proof Sys2Proof.Machine Sys2Proof.Claims

/-! ## States for the tests -/

/-- The golden input "abcdefghijklmnop" in input order (95, S6). -/
def golden : Block Byte :=
  ⟨0x61, 0x62, 0x63, 0x64, 0x65, 0x66, 0x67, 0x68, 0x69, 0x6A, 0x6B, 0x6C, 0x6D, 0x6E, 0x6F, 0x70⟩

/-- The golden input as loaded (95, 5.1). -/
def loaded : Block Byte :=
  ⟨0x61, 0x65, 0x69, 0x6D, 0x62, 0x66, 0x6A, 0x6E, 0x63, 0x67, 0x6B, 0x6F, 0x64, 0x68, 0x6C, 0x70⟩

/-- After SUB in round 0 (95, 7.2 step 1). -/
def afterSub : Block Byte :=
  ⟨0xEF, 0x4D, 0xF9, 0x3C, 0xAA, 0x33, 0x02, 0x9F, 0xFB, 0x85, 0x7F, 0xA8, 0x43, 0x45, 0x50, 0x51⟩

/-- After SHR in round 0 (95, 7.2 step 2). -/
def afterShr : Block Byte :=
  ⟨0xEF, 0x4D, 0xF9, 0x3C, 0x33, 0x02, 0x9F, 0xAA, 0x7F, 0xA8, 0xFB, 0x85, 0x51, 0x43, 0x45, 0x50⟩

/-- After MIX in round 0: `T[0]` (95, 7.2 step 3). -/
def afterMix : Block Byte :=
  ⟨0xBE, 0x77, 0xED, 0x48, 0x59, 0xE9, 0x8F, 0xB7, 0xD1, 0xC1, 0x44, 0x77, 0xC4, 0xFB, 0xFE, 0xCB⟩

/-- After SUB in round 9 (95, 7.2 step 28). -/
def lastSub : Block Byte :=
  ⟨0xE5, 0x9C, 0xE9, 0x59, 0x49, 0xEF, 0xCA, 0x1A, 0xE5, 0xFD, 0x4C, 0xEC, 0x88, 0xC8, 0x93, 0xAF⟩

/-- `T[9]` (95, 5.1). -/
def final : Block Byte :=
  ⟨0xE5, 0x9C, 0xE9, 0x59, 0xEF, 0xCA, 0x1A, 0x49, 0x4C, 0xEC, 0xE5, 0xFD, 0xAF, 0x88, 0xC8, 0x93⟩

/-- `LOAD` with the first `n` bytes of the golden input in place. -/
def loading (n : Nat) : State :=
  { State.reset with
    st := Block.ofFn fun m => if (tpos m).val < n then some (loaded.get m) else none
    icnt := BitVec.ofNat 5 n }

/-- `BUSY` at `upc = (r, p)` on the bytes `W`, with `r` emissions. -/
def running (r : Nat) (p : BitVec 2) (W : Block Byte) : State :=
  { State.reset with
    st := valued W, rnd := BitVec.ofNat 4 r, ph := p, icnt := 16, fsm := .busy
    out := (List.range r).map fun k => ⟨BitVec.ofNat 4 k, valued W⟩ }

/-- `DONE` on the bytes `W`. -/
def finished (W : Block Byte) : State := { running 10 0 W with fsm := .done }

/-- `FAULT`, cause `LENGTH`, after `n` bytes. -/
def faulted (n : Nat) : State := { loading n with err := .length, fsm := .fault }

/-- `s` with these entries at the host's. -/
def driving (h : List HostInput) (s : State) : State := { s with host := h }

/-- A step goes on, and `f` of the next state is `v`. -/
def gives {α : Type} [DecidableEq α] (r : Result) (f : State → α) (v : α) : Bool :=
  match r with
  | .next t => decide (f t = v)
  | _ => false

/-- A step goes on. -/
def goesOn (r : Result) : Bool := gives r (fun _ => ()) ()

/-! ## Decoding: one word of each row, written out from 30_encoding.md -/

theorem test_decode_ldb : decode (.cw 0b001100001) = .ok (.ldb 0x61) := by decide
theorem test_decode_run : decode (.cw 0b100000000) = .ok .run := by decide
theorem test_decode_sub : decode (.uop 0b00) = .ok .sub := by decide
theorem test_decode_shr : decode (.uop 0b01) = .ok .shr := by decide
theorem test_decode_mix : decode (.uop 0b10) = .ok .mix := by decide
theorem test_decode_gfmul1 : decode (.coef 0b01 0xDB) = .ok (.gfmul1 0xDB) := by decide
theorem test_decode_gfmul2 : decode (.coef 0b10 0xDB) = .ok (.gfmul2 0xDB) := by decide
theorem test_decode_gfmul3 : decode (.coef 0b11 0xDB) = .ok (.gfmul3 0xDB) := by decide

/-- Reserved codes (R40, R42, R43; 95 section 8). -/
theorem test_decode_reserved :
    decode (.cw 0x101) = .error (.reservedCommand 0x101) ∧ decode (.uop 0b11) = .error .noMicroOp ∧
      decode (.coef 0b00 0x13) = .error .noCoefficient := by decide

/-- Table words, as the table numbers the bits; a bit above the code makes it none. -/
theorem test_decode_table :
    decodeTableWord 16 0x061 = some (.ldb 0x61) ∧ decodeTableWord 16 0x100 = some .run ∧
      decodeTableWord 8 0 = some .sub ∧ decodeTableWord 8 1 = some .shr ∧ decodeTableWord 8 2 = some .mix ∧
      decodeTableWord 8 3 = some (.gfmul3 0) ∧ decodeTableWord 16 0x200 = none ∧ decodeTableWord 8 4 = none := by
  decide

/-- A placed word is the next step, as the first after reset; a coefficient code has no place (R9, D12). -/
theorem test_placed_words_run :
    gives (step (State.reset.withFetchWord 16 0x0AB)) (·.st.b0) (some 0xAB) = true ∧
      gives (step (State.reset.withFetchWord 16 0x100)) (·.err) .length = true ∧
      gives (step (State.reset.withFetchWord 8 0)) (·.ph) 1 = true ∧
      gives (step (State.reset.withFetchWord 8 1)) (·.ph) 2 = true ∧
      gives (step (State.reset.withFetchWord 8 2)) (·.rnd) 1 = true ∧
      State.reset.withFetchWord 8 3 = State.reset := by decide

/-! ## Ill-formed terms, one for each check of WellFormed -/

theorem test_illformed_ldb_number : (AsmLine.ldb (.number 256)).wellFormed = false := by decide
theorem test_illformed_ldb_char : (AsmLine.ldb (.char 'é')).wellFormed = false := by decide
theorem test_illformed_loadx : (AsmLine.loadx [0, 255, 256]).wellFormed = false := by decide
theorem test_illformed_matrix_code :
    mixCodesWellFormed [0b10, 0b11, 0b01, 0b01, 0b01, 0b10, 0b11, 0b01, 0b01, 0b01, 0b10, 0b11, 0b00, 0b01, 0b01, 0b10]
      = false := by decide
theorem test_illformed_matrix_length : mixCodesWellFormed [0b10, 0b11, 0b01, 0b01] = false := by decide

/-! ## The units -/

/-- 95, 2.1: corners of doubling. -/
theorem test_xtime :
    xtime 0x00 = 0x00 ∧ xtime 0x7F = 0xFE ∧ xtime 0x80 = 0x1B ∧ xtime 0x81 = 0x19 ∧ xtime 0xFF = 0xE5 := by decide

/-- 95, 2.3: `DOT` on a column of different bytes, one row of each place of the coefficients. -/
theorem test_dot :
    dot ⟨.two, .three, .one, .one⟩ ⟨0xDB, 0x13, 0x53, 0x45⟩ = 0x8E ∧
      dot ⟨.one, .two, .three, .one⟩ ⟨0xDB, 0x13, 0x53, 0x45⟩ = 0x4D ∧
      dot ⟨.three, .one, .one, .two⟩ ⟨0x80, 0x00, 0x00, 0x80⟩ = 0x80 ∧
      dot ⟨.one, .one, .one, .one⟩ ⟨0xDB, 0x13, 0x53, 0x45⟩ = 0xDE := by decide

/-- 95, 3: the address exchanges the nibbles; the values tell the two ROM layouts apart. -/
theorem test_sub_values :
    romAddr 0x01 = 0x10 ∧ romAddr 0x53 = 0x35 ∧ subByte defaultParams 0x01 = 0x7C ∧
      subByte defaultParams 0x10 = 0xCA ∧ subByte defaultParams 0x52 = 0x00 ∧
      subByte defaultParams 0xC9 = 0xDD ∧ subByte defaultParams 0xFF = 0x16 := by decide

/-- The checksum of a ROM transcription, `sum((a+1) * f(a)) mod 65521` (R58, R59). -/
def checksum (f : Nat → Byte) : Nat :=
  (List.range 256).foldl (fun acc a => acc + (a + 1) * (f a).toNat) 0 % 65521

/-- R59: the ROM in address order. -/
theorem test_rom_checksum : checksum (fun a => memReadSbox defaultParams (BitVec.ofNat 8 a)) = 51574 := by
  decide +kernel

/-- R58: the substitution in the order of the grid. -/
theorem test_sbox_checksum : checksum (fun b => subByte defaultParams (BitVec.ofNat 8 b)) = 5165 := by
  decide +kernel

/-- R71: the matrix as 2-bit codes. -/
theorem test_matrix_codes :
    mixMatrix.toList.map Coef.code =
      [0b10, 0b11, 0b01, 0b01, 0b01, 0b10, 0b11, 0b01, 0b01, 0b01, 0b10, 0b11, 0b11, 0b01, 0b01, 0b10] := by decide

/-- 95, 4.1 and 4.2. -/
theorem test_layout :
    toCM golden = loaded ∧ shiftRows afterSub = afterShr ∧
      (shiftRows (Block.ofFn fun i => i.val)).toList = [0, 1, 2, 3, 5, 6, 7, 4, 10, 11, 8, 9, 15, 12, 13, 14] := by decide

/-- R46, R47: one line of each form; the bytes of a character outside ASCII are its UTF-8 bytes. -/
theorem test_asm :
    asmProgram [.reset, .ldb (.char 'a'), .loadx [0, 255], .load ['é'], .encrypt ['b']] =
      [.drive true none, present 0x061, present 0x000, present 0x0FF, present 0x0C3, present 0x0A9,
       present 0x062, present 0x100] := by decide

/-! ## One step of each instruction -/

/-- R77: the second byte goes to `ST[4]` (95, 4.1). -/
theorem test_ldb_place : gives (exec (.ldb 0x62) (loading 1)) (fun t => (t.st.b4, t.icnt)) (some 0x62, 2) = true := by
  decide

/-- 95, P4: the 17th byte. `STATUS = 0x0107`, and nothing is written. -/
theorem test_ldb_too_long :
    gives (exec (.ldb 0x71) (loading 16)) (fun t => (t.status, t.st)) (0x0107, valued loaded) = true := by decide

/-- 95, P1: `RUN` on sixteen bytes, `STATUS = 0x0101`. -/
theorem test_run_starts : gives (exec .run (loading 16)) State.status 0x0101 = true := by decide

/-- 95, P3 and P6: `RUN` on fifteen bytes and on none. -/
theorem test_run_too_short :
    gives (exec .run (loading 15)) State.status 0x00F7 = true ∧
      gives (exec .run State.reset) State.status 0x0007 = true := by decide

/-- 95, P5: a reserved word after one byte, `STATUS = 0x001B`. -/
theorem test_reserved_word : gives (step (driving [present 0x1FF] (loading 1))) State.status 0x001B = true := by
  decide

/-- 95, 7.2 step 1. -/
theorem test_sub_golden :
    gives (exec .sub (running 0 0 loaded)) (fun t => (t.st, t.rnd, t.ph)) (valued afterSub, 0, 1) = true := by decide

/-- 95, 7.2 step 2. -/
theorem test_shr_golden :
    gives (exec .shr (running 0 1 afterSub)) (fun t => (t.st, t.rnd, t.ph)) (valued afterShr, 0, 2) = true := by decide

/-- 95, 7.2 step 29: SHR ends round 9; `STATUS = 0x1502`. -/
theorem test_shr_last :
    gives (exec .shr (running 9 1 lastSub)) (fun t => (t.st, t.status, t.finalOutput, t.strobe))
      (valued final, 0x1502, some ⟨9, valued final⟩, some 9) = true := by decide

/-- 95, 7.2 step 3. -/
theorem test_mix_golden :
    gives (exec .mix (running 0 2 afterShr)) (fun t => (t.st, t.rnd, t.ph, t.out))
      (valued afterMix, 1, 0, [⟨0, valued afterMix⟩]) = true := by decide

/-- 95, 4.3: a single 01 gives the first column of the matrix. -/
theorem test_mix_unit :
    gives (exec .mix (running 3 2 ⟨1, 0, 0, 0, 0, 0, 0, 0, 0, 0, 0, 0, 0, 0, 0, 0⟩)) (fun t => (t.st, t.strobe))
      (valued ⟨2, 0, 0, 0, 1, 0, 0, 0, 1, 0, 0, 0, 3, 0, 0, 0⟩, some 3) = true := by decide

/-- R50 to R52 (95, 2.2 and 2.3). -/
theorem test_gfmul1 : gives (exec (.gfmul1 0xDB) State.reset) (·.gfOut) (some 0xDB) = true := by decide
theorem test_gfmul2 : gives (exec (.gfmul2 0xDB) State.reset) (·.gfOut) (some 0xAD) = true := by decide
theorem test_gfmul3 :
    gives (exec (.gfmul3 0x13) State.reset) (·.gfOut) (some 0x35) = true ∧
      gives (exec (.gfmul3 0x80) State.reset) (·.gfOut) (some 0x9B) = true := by decide

/-- 95, P4: after the fault the RUN is not accepted, and the step is the `.reset`, which starts a new
program. -/
theorem test_reset_after_fault :
    gives (steps 2 (driving (asmProgram [.run, .reset, .ldb (.number 0x61)]) (faulted 16)))
      (fun t => (t.fsm, t.icnt, t.st.b0, t.st.b4)) (.load, 1, some 0x61, none) = true := by decide

/-- R22, U4: `PH = 3` has no step, and the multiplier is refused there too. -/
theorem test_no_step_outside_table :
    step (running 0 3 loaded) = .refused .unreachableState ∧
      exec (.gfmul1 0xDB) (running 0 3 loaded) = .refused .unreachableState := ⟨rfl, rfl⟩

/-- R87: the converted input on the bus once sixteen bytes are loaded, byte 0 lowest; no value before. -/
theorem test_out_bus :
    (loading 16).outBus = some 0x706C68646F6B67636E6A66626D696561 ∧ (loading 15).outBus = none := by decide +kernel

/-! ## Witnesses: for each obligation with hypotheses, cases that meet them -/

theorem test_wit_DecodeIffEncode :
    (Instr.ldb 0xFF).wellFormed = true ∧ Instr.mix.wellFormed = true ∧ (Instr.gfmul3 0xFF).wellFormed = true := by
  decide

theorem test_wit_CommandWordDecode :
    (0 < 512 ∧ 0 < 0x100) ∧ (0xFF < 512 ∧ 0xFF < 0x100) ∧ (0x100 < 512 ∧ ¬0x100 < 0x100) ∧
      (0x101 < 512 ∧ ¬0x101 < 0x100 ∧ 0x101 ≠ 0x100) ∧ 0x1FF < 512 := by decide

theorem test_wit_AssemblerExpansions :
    (AsmLine.ldb (.number 0)).wellFormed = true ∧ (AsmLine.ldb (.number 255)).wellFormed = true ∧
      (AsmLine.ldb (.char '\x7f')).wellFormed = true ∧ ∀ c ∈ ['a', '\x7f'], (AsmByte.char c).wellFormed = true :=
  ⟨by decide, by decide, by decide, by simp [AsmByte.wellFormed]⟩

theorem test_wit_DotIsXorOfProducts : ([3, 1, 0, 2] : List (Fin 4)).Perm [0, 1, 2, 3] := by decide

theorem test_wit_MultiplierLaws : ([.three, .one, .one, .two] : List Coef).Perm [.two, .three, .one, .one] := by decide

theorem test_wit_MatrixCodesChecked : matrixOfCodes (mixMatrix.toList.map Coef.code) = some mixMatrix := by decide

theorem test_wit_SubstituteReadsSwappedAddress :
    (0xC : Fin 16).val = (0xC9 : Byte).toNat / 16 ∧ (9 : Fin 16).val = (0xC9 : Byte).toNat % 16 := by decide

/-- The hypothesis on the matrix in RoundOperationAlgebra and EqualBytesStayEqual. -/
theorem test_wit_default_matrix : defaultParams.mixMatrix = mixMatrix := by decide

theorem test_wit_TraceIsTenRounds : (1 ≤ (1 : Fin 10).val ∧ (1 : Fin 10).val < 9) ∧ (8 : Fin 10).val < 9 := by decide

theorem test_wit_TraceLosesNoInformation : (trace defaultParams golden)[9]? = (trace defaultParams golden)[9]? := rfl

theorem test_wit_LoadByteEffect :
    (legal (loading 0) = true ∧ (loading 0).fsm = .load ∧ (loading 0).icnt = 0 ∧ (loading 0).icnt.toNat < 16) ∧
      (legal (loading 15) = true ∧ (loading 15).fsm = .load ∧ (loading 15).icnt.toNat < 16) ∧
      (legal (loading 16) = true ∧ (loading 16).fsm = .load ∧ (loading 16).icnt.toNat = 16) := by decide

theorem test_wit_RunEffect :
    (legal (loading 16) = true ∧ (loading 16).fsm = .load ∧ (loading 16).icnt.toNat = 16) ∧
      (legal (loading 0) = true ∧ (loading 0).fsm = .load ∧ (loading 0).icnt.toNat < 16) ∧
      (legal (loading 15) = true ∧ (loading 15).fsm = .load ∧ (loading 15).icnt.toNat < 16) := by decide

/-- Also the witness of CommandFrame: an accepted byte, a byte too many, a start, a start too early. -/
theorem test_wit_LengthRaisedExactly :
    gives (exec (.ldb 0x70) (loading 15)) (·.fsm) .load = true ∧ gives (exec (.ldb 0x71) (loading 16)) (·.fsm) .fault = true ∧
      gives (exec .run (loading 16)) (·.fsm) .busy = true ∧ gives (exec .run (loading 15)) (·.fsm) .fault = true ∧
      (loading 15).fsm ≠ .fault ∧ (loading 16).fsm ≠ .fault := by decide

theorem test_wit_ReservedWordRaisesIllcmd :
    (legal (loading 16) = true ∧ (driving [present 0x101] (loading 16)).host = .drive false (some 0x101) :: [] ∧
      0x101 ≤ (0x101 : CmdWord).toNat ∧ (loading 16).fsm = .load) ∧
      (goesOn (step (driving [present 0x1FF] (running 0 0 loaded))) = true ∧ (running 0 0 loaded).fsm ≠ .load) := by
  decide

theorem test_wit_MultiplierInstructionsComplete :
    legal (running 9 1 loaded) = true ∧ legal (running 9 2 loaded) = false := by decide

theorem test_wit_CommandsOnlyInLoad :
    (legal (loading 0) = true ∧ (loading 0).fsm = .load) ∧
      (legal (running 0 0 loaded) = true ∧ (running 0 0 loaded).fsm ≠ .load) ∧
      (legal (finished final) = true ∧ (finished final).fsm ≠ .load) ∧
      (legal (faulted 15) = true ∧ (faulted 15).fsm ≠ .load) := by decide

/-- `BUSY` at phase 0, in the first round and in the last. -/
theorem test_wit_SubBytesEffect :
    (legal (running 0 0 loaded) = true ∧ (running 0 0 loaded).fsm = .busy ∧ (running 0 0 loaded).ph = 0 ∧
      (running 0 0 loaded).st = valued loaded) ∧
      (legal (running 9 0 loaded) = true ∧ (running 9 0 loaded).fsm = .busy ∧ (running 9 0 loaded).ph = 0) := by decide

theorem test_wit_ShiftRowsEffect :
    (legal (running 8 1 afterSub) = true ∧ (running 8 1 afterSub).fsm = .busy ∧ (running 8 1 afterSub).ph = 1 ∧
      (running 8 1 afterSub).st = valued afterSub ∧ (running 8 1 afterSub).rnd.toNat < 9) ∧
      (legal (running 9 1 lastSub) = true ∧ (running 9 1 lastSub).fsm = .busy ∧ (running 9 1 lastSub).ph = 1 ∧
        (running 9 1 lastSub).st = valued lastSub ∧ (running 9 1 lastSub).rnd.toNat = 9) := by decide

theorem test_wit_MixColumnsEffect :
    (legal (running 0 2 afterShr) = true ∧ (running 0 2 afterShr).fsm = .busy ∧ (running 0 2 afterShr).ph = 2 ∧
      (running 0 2 afterShr).st = valued afterShr) ∧ legal (running 8 2 afterShr) = true := by decide

/-- Micro-steps on a state with a byte missing, one for each phase. -/
theorem test_wit_MicroOpsCompleteOnAnyBytes :
    legal { running 0 0 loaded with st := (loading 15).st } = true ∧
      legal { running 9 1 loaded with st := (loading 15).st } = true ∧
      legal { running 8 2 loaded with st := (loading 15).st } = true ∧ (loading 15).st.b15 = none := by decide

theorem test_wit_MicroOpFrame :
    goesOn (exec .sub (running 9 0 loaded)) = true ∧ goesOn (exec .shr (running 8 1 loaded)) = true ∧
      goesOn (exec .shr (running 9 1 loaded)) = true ∧ goesOn (exec .mix (running 8 2 loaded)) = true := by decide

theorem test_wit_NothingOutsideTheSequence :
    (legal (loading 16) = true ∧ ¬((loading 16).fsm = .busy ∧ (loading 16).ph = 0)) ∧
      (legal (running 0 0 loaded) = true ∧ ¬((running 0 0 loaded).fsm = .busy ∧ (running 0 0 loaded).ph = 1)) ∧
      (legal (running 0 1 loaded) = true ∧ ¬((running 0 1 loaded).fsm = .busy ∧ (running 0 1 loaded).ph = 2)) ∧
      (legal (running 9 2 loaded) = false ∧ ∀ h ∈ (running 9 2 loaded).host, quiet h = true) := by decide

theorem test_wit_StepRunsDecoded :
    (legal (loading 0) = true ∧ (∀ h ∈ [(.drive false none : HostInput)], h = .drive false none) ∧
      (driving [.drive false none, present 0x0FF] (loading 0)).host =
        [.drive false none] ++ .drive false (some 0x0FF) :: [] ∧
      decode (.cw 0x0FF) = .ok (.ldb 0xFF) ∧ (Instr.ldb 0xFF).wellFormed = true) ∧
      (legal (driving [present 0x1FF] (running 8 2 loaded)) = true ∧
        headQuiet (driving [present 0x1FF] (running 8 2 loaded)) = true ∧ headQuiet (running 8 2 loaded) = true ∧
        decode (.uop (running 8 2 loaded).ph) = .ok .mix ∧ Instr.mix.wellFormed = true) ∧
      decode (.coef 0b11 0x80) = .ok (.gfmul3 0x80) ∧ (Instr.gfmul3 0x80).wellFormed = true := by decide

/-- Edges with and without a word, and states before a reset: `FAULT`, the last micro-step of a run, `LOAD`
and one outside the table (95, P4 and P6). -/
theorem test_wit_ResetIsAlwaysReached :
    (∀ h ∈ [present 0x100, .drive false none, present 0x061], quiet h = true) ∧
      legal (faulted 16) = true ∧ legal (running 9 1 lastSub) = true ∧ legal (loading 16) = true ∧ legal (running 9 2 loaded) = false ∧
      (driving ([present 0x100] ++ .drive true none :: [present 0x061]) (faulted 16)).host =
        [present 0x100] ++ .drive true none :: [present 0x061] := by decide

/-- A command after an edge without one, a micro-step with a word at the port, a reset behind a word. -/
theorem test_wit_EveryStepIsACommandAMicroStepOrAReset :
    gives (step (driving [.drive false none, present 0x061] (loading 0))) (·.icnt) 1 = true ∧
      gives (step (driving [present 0x061] (running 0 0 loaded))) (·.ph) 1 = true ∧
      gives (step (driving [present 0x061, .drive true none] (finished final))) (·.fsm) .load = true := by decide

/-- R9, U10 (95, P6): the controller has no step in `LOAD` at edges without a word, and a word in `DONE` is
stuck. -/
theorem test_no_idle_step :
    step (driving [.drive false none] (loading 16)) = .fault .awaitingCommand ∧
      step (driving [.drive false none, present 0x061] (finished final)) = .fault .commandNotAccepted :=
  ⟨rfl, rfl⟩

theorem test_wit_NoStepWithoutCommandOrRun :
    (∀ h ∈ [(.drive false none : HostInput)], quiet h = true ∧ h.cmd = none) ∧
      (legal (loading 16) = true ∧ (loading 16).fsm = .load) ∧
      (legal (finished final) = true ∧ (finished final).fsm = .done) ∧
      (legal (faulted 0) = true ∧ (faulted 0).fsm = .fault) ∧
      (quiet (present 0x061) = true ∧ (present 0x061).cmd ≠ none) := by decide

/-- Reset from a state outside R22, with a command at the port. -/
theorem test_wit_ResetFromAnyState :
    (driving [.drive true (some 0x100)] (running 15 3 loaded)).host = .drive true (some 0x100) :: [] ∧
      legal (running 15 3 loaded) = false := by decide

theorem test_wit_OnlyResetLeavesDoneAndFault :
    ((finished final).fsm = .done ∧ goesOn (step (driving [.drive false none, .drive true none] (finished final))) = true) ∧
      ((faulted 16).fsm = .fault ∧ goesOn (step (driving [present 0x061, .drive true none] (faulted 16))) = true) := by decide

theorem test_wit_FaultsArePrecise :
    gives (step (driving [present 0x100] (loading 15))) (·.fsm) .fault = true ∧
      gives (step (driving [present 0x071] (loading 16))) (·.fsm) .fault = true ∧
      gives (step (driving [present 0x101] (loading 16))) (fun t => (t.fsm, t.err)) (.fault, .illcmd) = true ∧
      (loading 16).fsm ≠ .fault := by decide

/-- Also the witness of StrobeShowsTheEmission, HostCannotDisturbARun, StepKeepsTheInvariant and
StepFollowsTheTrace: steps that go on, with and without an emission. -/
theorem test_wit_ConstantsNeverChange :
    (goesOn (step (running 0 0 loaded)) = true ∧ ownStep (running 0 0 loaded) = true) ∧
      gives (step (running 0 2 loaded)) (·.strobe) (some 0) = true ∧
      gives (step (running 9 1 loaded)) (·.strobe) (some 9) = true ∧
      (goesOn (step (driving [present 0x1FF] (running 9 1 loaded))) = true ∧
        headQuiet (driving [present 0x1FF] (running 9 1 loaded)) = true) ∧
      goesOn (step (driving [.drive true none] (running 0 0 loaded))) = true := by decide

theorem test_wit_OutputBusLanes :
    (loading 16).outBus = some 0x706C68646F6B67636E6A66626D696561 ∧ (loading 15).outLane 15 = none := by decide

/-- A state of the invariant with a step: the sixteenth byte is about to be loaded. -/
theorem test_wit_StepKeepsTheInvariant_load :
    Inv (driving [present 0x070] (loading 15)) ∧ goesOn (step (driving [present 0x070] (loading 15))) = true :=
  ⟨⟨by decide, by decide, by decide, by decide, fun _ _ h => (by cases h), fun _ h => (by cases h)⟩, by decide⟩

/-- A state of the invariant with a step that emits and ends the run. -/
theorem test_wit_StepKeepsTheInvariant_busy :
    Inv (running 9 1 loaded) ∧ gives (step (running 9 1 loaded)) (·.fsm) .done = true :=
  ⟨⟨by decide, by decide, by decide, by decide, fun h => absurd h (by decide), fun _ h => (by cases h)⟩, by decide⟩

/-- A state of the run on the golden input, with a step. -/
theorem test_wit_StepFollowsTheTrace :
    FollowsInput golden (running 0 1 afterSub) ∧ goesOn (step (running 0 1 afterSub)) = true ∧
      ownStep (running 0 1 afterSub) = true ∧ (running 0 1 afterSub).fsm ≠ .load :=
  ⟨⟨rfl, loaded, by decide, by decide⟩, by decide, by decide, by decide⟩

/-- The last byte of the golden input is about to be loaded, and it is the input's. -/
theorem test_wit_StepFollowsTheTrace_load :
    FollowsInput golden (driving [present 0x070] (loading 15)) ∧
      goesOn (step (driving [present 0x070] (loading 15))) = true ∧
      ownStep (driving [present 0x070] (loading 15)) = true ∧ (loading 15).icnt.toNat < 16 ∧
      (golden.get 15).toNat = (0x070 : CmdWord).toNat :=
  ⟨show ∀ n : Fin 16, n.val < 15 → (loading 15).st.get (tpos n) = some (golden.get n) by decide,
    by decide, by decide, by decide, by decide⟩

theorem test_wit_MicroStepsMakeARound :
    (legal (running 8 0 loaded) = true ∧ (running 8 0 loaded).fsm = .busy ∧ (running 8 0 loaded).ph = 0 ∧
      (running 8 0 loaded).rnd.toNat = (8 : Fin 10).val ∧ (running 8 0 loaded).st = valued loaded ∧
      (running 8 0 loaded).host = []) ∧
      (legal (running 9 0 loaded) = true ∧ (running 9 0 loaded).rnd.toNat = (9 : Fin 10).val) := by decide

theorem test_wit_EveryRunEnds :
    (legal (running 0 0 loaded) = true ∧ (running 0 0 loaded).fsm = .busy ∧
      ∀ h ∈ (driving [.drive false none, present 0x1FF] (running 0 0 loaded)).host, quiet h = true) ∧
      (legal (running 9 1 loaded) = true ∧ microStepsDone (running 9 1 loaded) = 28 ∧ 0 < 29 - 28) := by decide

theorem test_wit_CompleteRunComputesTrace : 0 < 29 ∧ 28 < 29 := by decide

/-- The index ranges of DefaultSboxIsInverseThenAffine (bits) and EqualBytesStayEqual (rounds). -/
theorem test_wit_small_indices : 0 < 8 ∧ 7 < 8 ∧ 0 < 10 ∧ 9 < 10 := by decide

end Sys2Proof.Tests
end

section
/-! PROOF. The register file and the steps of spec/10_state.md: reset values, `STATUS`, the constants, what a
step is, and the invariant of the reachable states. -/

namespace Sys2Proof.Machine

/-! ## What holds at reset -/

/-- Settles O36: every field of the reset state is written out in its definition. -/
theorem resetValues : Obligations.ResetValues :=
  ⟨by decide, rfl, rfl, rfl, rfl, rfl, by decide, rfl, applyReset_params⟩

/-- While nothing has been emitted and the strobe is clear, the invariant is the table of R22 and the
written bytes of R11. -/
theorem inv_of_out_nil {s : State} (table : legal s = true)
    (written : ∀ n : Fin 16, (s.st.get (tpos n)).isSome = decide (n.val < s.icnt.toNat))
    (hout : s.out = []) (hstrobe : s.strobe = none) : Inv s where
  table := table
  written := written
  rounds := by simp [hout]
  whole := by simp [hout]
  settled := by simp [hout]
  shown := by simp [hstrobe]

/-- A reset gives the invariant from any state (R21, R105). -/
theorem inv_applyReset (s : State) : Inv (applyReset s) := by
  have unwritten : ∀ n : Fin 16, (State.reset.st.get (tpos n)).isSome = false := by decide
  exact inv_of_out_nil (legal_applyReset s) unwritten rfl rfl

/-- Before the first `LDB` every input explains the state. -/
theorem explained_of_load_zero {s : State} (hf : s.fsm = .load) (hi : s.icnt = 0) : Explained s := by
  refine ⟨Block.ofFn fun _ => 0, ?_⟩
  simp [FollowsInput, hf, hi]

/-- Settles O44: nothing is written or emitted yet, so both hold with no byte to check. -/
theorem resetMeetsTheInvariant : Obligations.ResetMeetsTheInvariant := fun h p =>
  ⟨inv_applyReset { State.reset with host := h, params := p }, explained_of_load_zero rfl rfl⟩

/-! ## The status vector (R16) -/

/-- Settles O42: from bit 0 up, each field stands on the widths of the fields below it. -/
theorem statusFields : Obligations.StatusFields := by
  intro s
  simp (disch := decide) only [State.status, BitVec.extractLsb'_append_eq_of_le,
    BitVec.extractLsb'_append_eq_right, Nat.reduceSub]
  refine ⟨?fsm, ?err, trivial, trivial, trivial, ?top⟩
  case fsm => cases s.fsm <;> rfl
  case err => cases s.err <;> rfl
  case top => simp only [BitVec.getLsbD_append]; rfl

/-! ## The constants (R19) -/

theorem loadByte_params (d : Byte) (s : State) : (loadByte d s).params = s.params := by
  obtain ⟨_, h⟩ | ⟨_, h⟩ := loadByte_cases d s <;> simp [h]

theorem startRun_params (s : State) : (startRun s).params = s.params := by
  obtain ⟨_, h⟩ | ⟨_, h⟩ := startRun_cases s <;> simp [h]

theorem roundEnd_params (s : State) : (roundEnd s).params = s.params := by
  obtain ⟨_, h⟩ | ⟨_, h⟩ := roundEnd_cases s <;> simp [h]

theorem doShr_params (s : State) : (doShr s).params = s.params := by
  obtain ⟨_, h⟩ | ⟨_, h⟩ := doShr_cases s <;> simp [h]

/-- No step writes the ROM contents, a reset included (R19, R106). -/
theorem step_params {s t : State} (h : step s = .next t) : t.params = s.params := by
  cases step_cases h with
  | reset _ _ _ ht => rw [ht]; rfl
  | ldb _ d _ _ _ _ _ ht => rw [ht]; exact loadByte_params d _
  | run _ _ _ _ _ _ ht => rw [ht]; exact startRun_params _
  | reserved _ _ _ _ _ _ ht => rw [ht]; rfl
  | sub _ _ _ _ _ _ ht => rw [ht]; rfl
  | shr _ _ _ _ _ _ ht => rw [ht]; exact doShr_params _
  | mix _ _ _ _ _ _ ht => rw [ht]; exact roundEnd_params _

/-- Settles O39: both ROMs are read from `params`, which no step writes. -/
theorem constantsNeverChange : Obligations.ConstantsNeverChange := by
  intro s t h
  rw [step_params h]
  exact ⟨fun _ => rfl, fun _ => rfl⟩

/-! ## What a step is (R9) -/

/-- A step that takes a word at the port in `LOAD` runs it, after edges with nothing on them (R76). -/
theorem command_step {s t : State} {w : CmdWord} {rest : List HostInput} (hl : legal s = true)
    (hf : s.fsm = .load) (hh : pending s = .drive false (some w) :: rest) (h : step s = .next t) :
    ∃ before, (∀ a ∈ before, a = .drive false none) ∧
      s.host = before ++ .drive false (some w) :: rest ∧
      runCode (.cw w) (newPeriod rest s) = .next t := by
  obtain ⟨before, hsplit, hidle, -⟩ := pending_split s
  have hrun : step s = runCode (.cw w) (newPeriod rest s) := by
    simp only [step, fetch_command hl hf hh]
  exact ⟨before, fun a ha => (nothingDue_load hl hf).1 (hidle a ha), hh ▸ hsplit, hrun ▸ h⟩

/-- A step in `BUSY` with no reset at the next edge runs the micro-op of `PH` (R79). -/
theorem busy_step {s : State} (hl : legal s = true) (hf : s.fsm = .busy) (hq : headQuiet s = true) :
    step s = runCode (.uop s.ph) (newPeriod s.host.tail s) := by
  simp only [step, fetch_busy hl hf hq]

/-- Settles O51: the kinds of step, with the edges `pending` leaves out written back. -/
theorem everyStepIsACommandAMicroStepOrAReset : Obligations.EveryStepIsACommandAMicroStepOrAReset := by
  intro s t h
  cases step_cases h with
  | reset c rest hh ht =>
    obtain ⟨before, hsplit, hidle, -⟩ := pending_split s
    exact .inr (.inr ⟨before, c, rest, fun a ha => nothingDue_quiet (hidle a ha), hh ▸ hsplit, ht⟩)
  | ldb w _ rest hl hf hh | run w rest hl hf hh | reserved w rest hl hf hh =>
    obtain ⟨before, hidle, hsplit, hrun⟩ := command_step hl hf hh h
    exact .inl ⟨hl, hf, before, w, rest, hidle, hsplit, hrun⟩
  | sub _ hl hf hq | shr _ hl hf hq | mix _ hl hf hq =>
    exact .inr (.inl ⟨hl, hf, hq, busy_step hl hf hq ▸ h⟩)

/-! ## The invariant of the reachable states -/

/-! The rows of the table of R22. -/

theorem legal_load_iff {s : State} (hf : s.fsm = .load) :
    legal s = true ↔ s.icnt.toNat ≤ 16 ∧ s.rnd = 0 ∧ s.ph = 0 ∧ s.err = .none ∧ s.out = [] := by
  simp [legal, hf, and_assoc]

theorem legal_busy_iff {s : State} (hf : s.fsm = .busy) :
    legal s = true ↔ s.icnt.toNat = 16 ∧ s.rnd.toNat ≤ 9 ∧
      (s.ph = 0 ∨ s.ph = 1 ∨ s.ph = 2 ∧ s.rnd.toNat < 9) ∧ s.err = .none ∧
      s.out.length = s.rnd.toNat := by
  simp [legal, hf, and_assoc, or_assoc]

theorem legal_done_iff {s : State} (hf : s.fsm = .done) :
    legal s = true ↔ s.icnt.toNat = 16 ∧ s.rnd = 10 ∧ s.ph = 0 ∧ s.err = .none ∧ s.out.length = 10 := by
  simp [legal, hf, and_assoc]

theorem legal_fault_iff {s : State} (hf : s.fsm = .fault) :
    legal s = true ↔ s.icnt.toNat ≤ 16 ∧ s.rnd = 0 ∧ s.ph = 0 ∧
      (s.err = .length ∨ s.err = .illcmd) ∧ s.out = [] := by
  simp [legal, hf, and_assoc]

/-- The strobe ends with its clock period, and nothing else of the invariant reads what changes (R87). -/
theorem Inv.newPeriod {s : State} (h : Inv s) (rest : List HostInput) : Inv (newPeriod rest s) where
  table := h.table
  written := h.written
  rounds := h.rounds
  whole := h.whole
  settled := h.settled
  shown := by simp

/-! Steps out of `LOAD`: nothing has been emitted (R22). -/

section Loading
variable {s : State} (hinv : Inv s) (hf : s.fsm = .load) (hstrobe : s.strobe = none)
include hinv hf hstrobe

/-- A fault entered from `LOAD` keeps the bytes and their count (R97, R98). -/
theorem inv_raise {c : Err} (hc : c = .length ∨ c = .illcmd) : Inv (raise c s) := by
  obtain ⟨hicnt, hrnd, hph, -, hout⟩ := (legal_load_iff hf).1 hinv.table
  exact inv_of_out_nil ((legal_fault_iff rfl).2 ⟨hicnt, hrnd, hph, hc, hout⟩) hinv.written hout hstrobe

/-- `LDB` writes the byte at `TPOS(ICNT)` and counts it (R77). -/
theorem inv_loadByte (d : Byte) : Inv (loadByte d s) := by
  obtain ⟨hicnt, hrnd, hph, herr, hout⟩ := (legal_load_iff hf).1 hinv.table
  obtain ⟨hlt, h⟩ | ⟨-, h⟩ := loadByte_cases d s
  · rw [h]
    have hcount : (s.icnt + 1).toNat = s.icnt.toNat + 1 := by bv_omega
    refine inv_of_out_nil ((legal_load_iff ?fsm).2 ⟨?icnt, hrnd, hph, herr, hout⟩) (fun n => ?written)
      hout hstrobe
    case fsm => exact hf
    case icnt => simp only [hcount]; omega
    case written =>
      simp only [Block.get_set, hcount]
      by_cases hn : n = ⟨s.icnt.toNat, hlt⟩
      · simp [hn]
      · have hne : n.val ≠ s.icnt.toNat := fun hv => hn (Fin.ext hv)
        rw [if_neg fun ht => hn (tpos_injective ht), hinv.written n, decide_eq_decide]
        omega
  · rw [h]
    exact inv_raise hinv hf hstrobe (.inl rfl)

/-- `RUN` goes to `BUSY` at (0, 0) when sixteen bytes are in (R78). -/
theorem inv_startRun : Inv (startRun s) := by
  obtain ⟨-, -, -, herr, hout⟩ := (legal_load_iff hf).1 hinv.table
  obtain ⟨hicnt, h⟩ | ⟨-, h⟩ := startRun_cases s
  · rw [h]
    exact inv_of_out_nil
      ((legal_busy_iff rfl).2 ⟨by simp [hicnt], Nat.zero_le 9, .inl rfl, herr, by simp [hout]⟩)
      hinv.written hout hstrobe
  · rw [h]
    exact inv_raise hinv hf hstrobe (.inl rfl)

end Loading

/-- What holds inside a run whatever the phase: sixteen bytes with values, and one whole emission for each
round done (R11, R18, R22). -/
structure Running (s : State) : Prop where
  fsm : s.fsm = .busy
  icnt : s.icnt.toNat = 16
  rnd : s.rnd.toNat ≤ 9
  err : s.err = .none
  length : s.out.length = s.rnd.toNat
  rounds : s.out.map Emission.round = (List.range s.out.length).map (BitVec.ofNat 4)
  whole : ∀ e ∈ s.out, ∀ i : Fin 16, (e.bytes.get i).isSome = true
  values : ∃ W, s.st = valued W

/-- A block without a missing byte is a block of values. -/
theorem exists_eq_valued {S : Block (Option Byte)} (h : ∀ i, (S.get i).isSome = true) :
    ∃ W, S = valued W :=
  ⟨Block.ofFn fun i => (S.get i).get (h i), by ext1 i; simp [valued]⟩

theorem isSome_get_valued (W : Block Byte) (i : Fin 16) : ((valued W).get i).isSome = true := by
  simp [valued]

/-- In `BUSY` the invariant gives what holds in a run: by `ICNT = 16` every byte is written. -/
theorem Inv.running {s : State} (h : Inv s) (hf : s.fsm = .busy) : Running s := by
  obtain ⟨hicnt, hrnd, -, herr, hlen⟩ := (legal_busy_iff hf).1 h.table
  refine ⟨hf, hicnt, hrnd, herr, hlen, h.rounds, h.whole, exists_eq_valued fun i => ?_⟩
  have := h.written (tpos i)
  rw [tpos_tpos, hicnt] at this
  simpa using this

namespace Running

variable {s : State}

/-- `ST` may be replaced by any sixteen values. -/
theorem setSt (h : Running s) (W : Block Byte) : Running { s with st := valued W } :=
  ⟨h.fsm, h.icnt, h.rnd, h.err, h.length, h.rounds, h.whole, W, rfl⟩

theorem written (h : Running s) (n : Fin 16) :
    (s.st.get (tpos n)).isSome = decide (n.val < s.icnt.toNat) := by
  obtain ⟨W, hW⟩ := h.values
  rw [hW, isSome_get_valued, h.icnt]
  simp

/-- Within a round: at phase 1 or 2 nothing ties `ST` to the last emission (R79). -/
theorem inv_setUpc (h : Running s) (hstrobe : s.strobe = none) {p : BitVec 2}
    (hp : p = 1 ∨ p = 2 ∧ s.rnd.toNat < 9) : Inv (setUpc s.rnd p s) where
  table := (legal_busy_iff (s := setUpc s.rnd p s) h.fsm).2 ⟨h.icnt, h.rnd, .inr hp, h.err, h.length⟩
  written := h.written
  rounds := h.rounds
  whole := h.whole
  settled := by
    intro h0
    obtain rfl | ⟨rfl, -⟩ := hp <;> cases h0
  shown := by simp [hstrobe]

/-- At the end of a round: with `ST` emitted and `PH` at 0, the invariant is the row of R22 reached. -/
theorem inv_emit (h : Running s) {r : BitVec 4} {f : Fsm}
    (table : legal { setUpc r 0 (emit s) with fsm := f } = true) :
    Inv { setUpc r 0 (emit s) with fsm := f } where
  table := table
  written := h.written
  rounds := by simp [List.range_succ, h.rounds, h.length]
  whole := by
    obtain ⟨W, hW⟩ := h.values
    simp only [emit_out, setUpc_out, List.mem_append, List.mem_singleton]
    rintro e (he | rfl)
    · exact h.whole e he
    · simpa [hW] using isSome_get_valued W
  settled := by simp
  shown := by simp

/-- The end of a round before the last: the next round begins (R83). -/
theorem inv_nextRound (h : Running s) (hlt : s.rnd.toNat < 9) : Inv (setUpc (s.rnd + 1) 0 (emit s)) := by
  have hnext : (s.rnd + 1).toNat = s.rnd.toNat + 1 := by bv_omega
  refine h.inv_emit (f := s.fsm) ((legal_busy_iff ?_).2 ⟨h.icnt, ?_, .inl rfl, h.err, ?_⟩)
  · exact h.fsm
  · simp only [setUpc_rnd, hnext]; omega
  · exact (by simp [h.length] : (emit s).out.length = s.rnd.toNat + 1).trans hnext.symm

/-- The end of round 9 is `DONE` (R83). -/
theorem inv_lastRound (h : Running s) (hge : 9 ≤ s.rnd.toNat) :
    Inv { setUpc 10 0 (emit s) with fsm := .done } := by
  have hle := h.rnd
  refine h.inv_emit ((legal_done_iff rfl).2 ⟨h.icnt, rfl, rfl, h.err, ?_⟩)
  simp [h.length]; omega

theorem inv_roundEnd (h : Running s) : Inv (roundEnd s) := by
  obtain ⟨hlt, he⟩ | ⟨hge, he⟩ := roundEnd_cases s <;> rw [he]
  · exact h.inv_nextRound hlt
  · exact h.inv_lastRound hge

/-! The three micro-steps, each on sixteen values (R80 to R82). -/

theorem inv_doSub (h : Running s) (hstrobe : s.strobe = none) : Inv (doSub s) := by
  obtain ⟨W, hW⟩ := h.values
  rw [doSub, hW, valued, subLanes_some]
  exact (h.setSt (subBytes s.params W)).inv_setUpc hstrobe (.inl rfl)

theorem inv_doShr (h : Running s) (hstrobe : s.strobe = none) : Inv (doShr s) := by
  obtain ⟨W, hW⟩ := h.values
  have hr := h.setSt (shiftRows W)
  obtain ⟨hlt, he⟩ | ⟨hge, he⟩ := doShr_cases s <;> rw [he, hW, valued, shiftLanes_some]
  · exact hr.inv_setUpc hstrobe (.inr ⟨rfl, hlt⟩)
  · exact hr.inv_lastRound hge

theorem inv_doMix (h : Running s) : Inv (doMix s) := by
  obtain ⟨W, hW⟩ := h.values
  rw [doMix, hW, valued, mixLanes_some]
  exact (h.setSt (mixColumns s.params W)).inv_roundEnd

end Running

/-- Settles O45: a reset or a command starts from no emission; a micro-step keeps what holds in a run, and
the end of a round emits `ST` as it stands. -/
theorem stepKeepsTheInvariant : Obligations.StepKeepsTheInvariant := by
  intro s t hinv h
  cases step_cases h with
  | reset _ _ _ ht => exact ht ▸ inv_applyReset _
  | ldb _ d rest _ hf _ _ ht => exact ht ▸ inv_loadByte (hinv.newPeriod rest) hf rfl d
  | run _ rest _ hf _ _ ht => exact ht ▸ inv_startRun (hinv.newPeriod rest) hf rfl
  | reserved _ rest _ hf _ _ ht => exact ht ▸ inv_raise (hinv.newPeriod rest) hf rfl (.inr rfl)
  | sub rest _ hf _ _ _ ht => exact ht ▸ ((hinv.newPeriod rest).running hf).inv_doSub rfl
  | shr rest _ hf _ _ _ ht => exact ht ▸ ((hinv.newPeriod rest).running hf).inv_doShr rfl
  | mix rest _ hf _ _ _ ht => exact ht ▸ ((hinv.newPeriod rest).running hf).inv_doMix

end Sys2Proof.Machine
end

section
/-! PROOF. The output bus of spec/20_memory.md: the lanes of `out_state`, and when the bus has a value. -/

namespace Sys2Proof.Machine

/-- Lane `i` of the packed bus is byte `i`: the bytes before it fill the low `8*i` bits (R27). -/
theorem extractLsb'_packLanes (W : Block Byte) (i : Fin 16) :
    (packLanes W).extractLsb' (8 * i.val) 8 = W.get i := by
  unfold packLanes
  fin_cases i
  all_goals
    simp (disch := decide) only [Nat.reduceMul, Nat.reduceSub, BitVec.extractLsb'_append_eq_of_le,
      BitVec.extractLsb'_append_eq_right, BitVec.extractLsb'_eq_self]
    rfl

theorem valuesOf?_eq_some_iff {S : Block (Option Byte)} {W : Block Byte} :
    valuesOf? S = some W ↔ S = valued W := by
  constructor
  · intro h
    unfold valuesOf? at h
    split at h
    · exact Option.some.inj h ▸ rfl
    · cases h
  · rintro rfl
    rfl

/-- A block without its sixteen values has a byte without one: otherwise it would be a block of values. -/
theorem valuesOf?_eq_none_iff {S : Block (Option Byte)} :
    valuesOf? S = none ↔ ∃ i, S.get i = none := by
  constructor
  · intro h
    by_contra! hall
    obtain ⟨W, hW⟩ := exists_eq_valued fun i => Option.isSome_iff_ne_none.2 (hall i)
    cases h.symm.trans (valuesOf?_eq_some_iff.2 hW)
  · rintro ⟨i, hi⟩
    refine Option.eq_none_iff_forall_ne_some.2 fun W h => ?_
    have hsome := isSome_get_valued W i
    rw [← valuesOf?_eq_some_iff.1 h, hi] at hsome
    cases hsome

/-- Settles O43: a bus value packs the sixteen values of `ST`, and there is none when a byte is missing. -/
theorem outputBusLanes : Obligations.OutputBusLanes := by
  intro s
  constructor
  · intro v hv i
    obtain ⟨W, hW, rfl⟩ := Option.map_eq_some_iff.1 hv
    rw [State.outLane, valuesOf?_eq_some_iff.1 hW, extractLsb'_packLanes, valued, Block.get_map]
  · exact Option.map_eq_none_iff.trans valuesOf?_eq_none_iff

end Sys2Proof.Machine
end

section
/-! PROOF. The three code spaces of spec/30_encoding.md: decoder and encoder are inverse, and the assembler
lines are the words they stand for. -/

namespace Sys2Proof.Machine

/-! ## The 512 command words (R44) -/

/-- `LDB` with a byte below `0x100` is that number as a word: bit 8 is clear (R38). -/
theorem ldb_word_ofNat {n : Nat} (h : n < 0x100) : 0#1 ++ BitVec.ofNat 8 n = BitVec.ofNat 9 n := by
  apply BitVec.eq_of_toNat_eq
  rw [ldb_word_toNat, BitVec.toNat_ofNat, BitVec.toNat_ofNat]
  omega

/-- The three ranges of command words (R38, R39, R40). -/
theorem commandWord_cases (w : CmdWord) : (∃ d : Byte, w = 0#1 ++ d) ∨ w = 0x100 ∨ 0x100 < w.toNat := by
  obtain h | h | h := Nat.lt_trichotomy w.toNat 0x100
  · exact .inl ⟨BitVec.ofNat 8 w.toNat, by rw [ldb_word_ofNat h, BitVec.ofNat_toNat, BitVec.setWidth_eq]⟩
  · exact .inr (.inl (BitVec.eq_of_toNat_eq h))
  · exact .inr (.inr h)

theorem decodeCommand_ldb (d : Byte) : decodeCommand (0#1 ++ d) = .ok (.ldb d) := by
  rw [decodeCommand, if_pos (ldb_word_op d), ldb_word_data]

theorem decodeCommand_run : decodeCommand 0x100 = .ok .run := rfl

/-- Above `0x100` bit 8 is set and the low byte is not zero, so the word is reserved (R40). -/
theorem decodeCommand_reserved {w : CmdWord} (h : 0x100 < w.toNat) :
    decodeCommand w = .error (.reservedCommand w) := by
  have op : ¬w.getLsbD 8 = false := by
    rw [show w.getLsbD 8 = w.msb from rfl, BitVec.msb_eq_decide, decide_eq_false_iff_not, not_not]
    exact h.le
  have data : w.extractLsb' 0 8 ≠ 0 := fun h0 => by
    have low : w.toNat % 0x100 = 0 := by simpa using congrArg BitVec.toNat h0
    omega
  rw [decodeCommand, if_neg op, if_neg data]

/-! ## Decoder and encoder -/

/-- A coefficient code with an operation is the code of that operation, with its operand (R43). -/
theorem decodeCoef_ok {c : Code2} {v : Byte} {i : Instr} (h : decodeCoef c v = .ok i) :
    .coef c v = encode i := by
  match c with
  | 0 => cases h
  | 1 => cases h; rfl
  | 2 => cases h; rfl
  | 3 => cases h; rfl

/-- Code `00` names no operation, whatever the operand (R43). -/
theorem decode_coef_zero (v : Byte) : decode (.coef 0 v) = .error .noCoefficient := rfl

theorem decode_encode (i : Instr) : decode (encode i) = .ok i := by
  cases i with
  | ldb d => exact decodeCommand_ldb d
  | run | sub | shr | mix | gfmul1 | gfmul2 | gfmul3 => rfl

/-- No code but its encoding reads as an instruction: by code space, and for a command word by range. -/
theorem eq_encode_of_decode {c : CodeWord} {i : Instr} (h : decode c = .ok i) : c = encode i := by
  cases c with
  | cw w =>
    obtain ⟨d, rfl⟩ | rfl | hw := commandWord_cases w
    · cases (decodeCommand_ldb d).symm.trans h; rfl
    · cases h; rfl
    · cases (decodeCommand_reserved hw).symm.trans h
  | uop p =>
    obtain ⟨rfl, rfl⟩ | ⟨rfl, rfl⟩ | ⟨rfl, rfl⟩ := decodeMicroOp_ok h
    · rfl
    · rfl
    · rfl
  | coef c v => exact decodeCoef_ok h

/-- Settles O2: an encoding decodes to its instruction, and no other code does. -/
theorem decodeIffEncode : Obligations.DecodeIffEncode := fun i _ _ =>
  ⟨eq_encode_of_decode, fun h => h ▸ decode_encode i⟩

/-- Settles O3, range by range. -/
theorem commandWordDecode : Obligations.CommandWordDecode := by
  intro n hn
  split_ifs with hldb hrun
  · rw [← ldb_word_ofNat hldb]
    exact decodeCommand_ldb _
  · subst hrun
    exact decodeCommand_run
  · refine decodeCommand_reserved ?_
    rw [BitVec.toNat_ofNat]
    omega

/-- Settles O1: a code with a meaning is the encoding of it, the other four decode to their errors. -/
theorem decodesSpecWords : Obligations.DecodesSpecWords :=
  ⟨decode_encode (.ldb 0x00), decode_encode (.ldb 0x61), decode_encode (.ldb 0xFF), decode_encode .run,
    decodeCommand_reserved (by decide), decodeCommand_reserved (by decide),
    decode_encode .sub, decode_encode .shr, decode_encode .mix, rfl,
    decode_encode (.gfmul1 0xDB), decode_encode (.gfmul2 0xDB), decode_encode (.gfmul3 0x13),
    decode_coef_zero 0x13⟩

/-! ## Coefficient code 00 -/

/-- A code that names a coefficient is not `00`, which names none (R53). -/
theorem code_ne_zero (c : Coef) : c.code ≠ 0 := fun h => by
  have none_some : none = some c := by rw [← ofCode?_zero, ← h, ofCode?_code]
  cases none_some

/-- Settles O10: code `00` does not decode, whatever the operand, and so is refused before any state is read. -/
theorem coefficientZeroRefused : Obligations.CoefficientZeroRefused :=
  ⟨fun c => ⟨code_ne_zero c, ofCode?_code c⟩, fun _ v => runCode_of_error (decode_coef_zero v)⟩

/-! ## Assembler lines (R46, R47) -/

/-- A byte an `LDB` line may name is below 256, so the line is the one word with that value. -/
theorem ldbWord_ofNat_toNat {n : Nat} (h : n < 0x100) : (ldbWord (BitVec.ofNat 8 n)).toNat = n := by
  rw [ldbWord, ldb_word_toNat, BitVec.toNat_ofNat, Nat.mod_eq_of_lt h]

/-- An ASCII character is its own code in UTF-8. -/
theorem utf8_of_ascii {c : Char} (h : (AsmByte.char c).wellFormed = true) : utf8 c = [asmByte (.char c)] :=
  if_pos (of_decide_eq_true h)

/-- So in ASCII, a text has one byte a character. -/
theorem flatMap_utf8_of_ascii {text : List Char} (h : ∀ c ∈ text, (AsmByte.char c).wellFormed = true) :
    text.flatMap utf8 = text.map fun c => asmByte (.char c) := by
  rw [List.map_eq_flatMap]
  exact List.flatMap_congr fun c hc => utf8_of_ascii (h c hc)

/-- Settles O4: the two `LDB` forms have a value below 256, and each pseudo-instruction presents its bytes one
by one. -/
theorem assemblerExpansions : Obligations.AssemblerExpansions := by
  refine ⟨fun n h => ⟨_, ldbWord_ofNat_toNat (of_decide_eq_true h), rfl⟩, fun c h => ?_, rfl, rfl,
    fun bytes => List.map_eq_flatMap, fun text h => ?_, fun _ => rfl, fun _ => rfl⟩
  · have ascii : c.val.toNat < 128 := of_decide_eq_true h
    exact ⟨_, ldbWord_ofNat_toNat (by omega), rfl⟩
  · calc asmExpand (.load text)
        = (text.flatMap utf8).map fun d => present (ldbWord d) := rfl
      _ = text.map fun c => present (ldbWord (asmByte (.char c))) := by
          rw [flatMap_utf8_of_ascii h, List.map_map]; rfl
      _ = text.flatMap fun c => asmExpand (.ldb (.char c)) := List.map_eq_flatMap

end Sys2Proof.Machine
end

section
/-! PROOF. The multiplier of spec/40_gf.md: doubling, the three products, their XOR in DOT, and the matrix given
as coefficient codes. -/

namespace Sys2Proof

/-- Sixteen things in a list are a block. -/
theorem Block.exists_toList_eq {α : Type} {l : List α} (h : l.length = 16) : ∃ b : Block α, b.toList = l := by
  refine ⟨Block.ofFn fun i => l.get (i.cast h.symm), ?_⟩
  calc (Block.ofFn fun i => l.get (i.cast h.symm)).toList
      = List.ofFn fun i : Fin 16 => l.get (i.cast h.symm) := rfl
    _ = l := by rw [← List.ofFn_congr h, List.ofFn_get]

end Sys2Proof

namespace Sys2Proof.Machine

/-! ## Doubling (R48, R49) -/

/-- Bit 7 is the top bit of a byte, so it is set exactly in the upper half (R48). -/
theorem getLsbD_seven (v : Byte) : v.getLsbD 7 = decide (0x80 ≤ v.toNat) := BitVec.msb_eq_decide v

theorem large_iff (v : Byte) : large v = true ↔ 0x80 ≤ v.toNat := by
  rw [large, getLsbD_seven, decide_eq_true_iff]

/-- The mask may come before the XOR: cutting the ninth bit off commutes with it (R49). -/
theorem xtime_eq_shift_xor (v : Byte) : xtime v = (v <<< 1) ^^^ (if v.getLsbD 7 then 0x1B else 0x00) := by
  have cut : (v.setWidth 9 <<< 1).setWidth 8 = v <<< 1 := by
    apply BitVec.eq_of_toNat_eq
    simp [Nat.shiftLeft_eq]
  rw [xtime, large]
  cases v.getLsbD 7 with
  | false => exact cut.trans BitVec.xor_zero.symm
  | true =>
    calc (v.setWidth 9 <<< 1 ^^^ Config.redc.setWidth 9).setWidth 8
        = (v.setWidth 9 <<< 1).setWidth 8 ^^^ (Config.redc.setWidth 9).setWidth 8 := BitVec.setWidth_xor
      _ = v <<< 1 ^^^ 0x1B := congrArg (· ^^^ 0x1B) cut

/-- Shifting left is dropping bit 7 and wiring a 0 in at the bottom. -/
theorem shiftLeft_one_eq_wires (v : Byte) : v <<< 1 = v.extractLsb' 0 7 ++ 0#1 :=
  BitVec.shiftLeft_eq_concat_of_lt (by decide)

theorem toNat_xtime (v : Byte) :
    (xtime v).toNat = ((2 * v.toNat) ^^^ (if 0x80 ≤ v.toNat then 0x1B else 0)) % 256 := by
  have shift : (v <<< 1).toNat = 2 * v.toNat % 2 ^ 8 := by
    rw [BitVec.toNat_shiftLeft, Nat.shiftLeft_eq, pow_one, Nat.mul_comm]
  have mask : (if v.getLsbD 7 then 0x1B else 0x00 : Byte).toNat =
      (if 0x80 ≤ v.toNat then 0x1B else 0) % 2 ^ 8 := by
    rw [getLsbD_seven]
    by_cases h : 0x80 ≤ v.toNat <;> simp [h]
  rw [xtime_eq_shift_xor, BitVec.toNat_xor, shift, mask, ← Nat.xor_mod_two_pow]

/-- Settles O5: the shift with the mask before the XOR, read as a number and as wires. -/
theorem xtimeDoubles : Obligations.XtimeDoubles :=
  ⟨fun v => ⟨rfl, large_iff v, toNat_xtime v, shiftLeft_one_eq_wires v ▸ xtime_eq_shift_xor v⟩,
    rfl, rfl, rfl, rfl, rfl⟩

/-- Doubling is linear over XOR: the shift is, and the bits 7 decide the constant (R55). -/
theorem xtime_xor (a b : Byte) : xtime (a ^^^ b) = xtime a ^^^ xtime b := by
  have reduction : (if (a ^^^ b).getLsbD 7 then 0x1B else 0x00 : Byte) =
      (if a.getLsbD 7 then 0x1B else 0x00) ^^^ (if b.getLsbD 7 then 0x1B else 0x00) := by
    rw [BitVec.getLsbD_xor]
    cases a.getLsbD 7 <;> cases b.getLsbD 7 <;> rfl
  rw [xtime_eq_shift_xor, xtime_eq_shift_xor a, xtime_eq_shift_xor b, BitVec.shiftLeft_xor_distrib, reduction]
  ac_rfl

/-- Only 0 doubles to 0: bit 0 of the double is the old bit 7, and without it doubling is a shift. -/
theorem eq_zero_of_xtime_eq_zero {v : Byte} (h : xtime v = 0) : v = 0 := by
  rw [xtime_eq_shift_xor, getLsbD_seven] at h
  by_cases upper : 0x80 ≤ v.toNat
  · have bit0 := congrArg (BitVec.getLsbD · 0) h
    simp [upper] at bit0
  · have shifted : (v <<< 1).toNat = 0 := by simpa [upper] using congrArg BitVec.toNat h
    rw [BitVec.toNat_shiftLeft, Nat.shiftLeft_eq] at shifted
    apply BitVec.eq_of_toNat_eq
    show v.toNat = 0
    omega

/-- Being linear, doubling is injective; on a finite type that makes it a bijection (R49). -/
theorem xtime_bijective : Function.Bijective xtime := by
  refine Finite.injective_iff_bijective.1 fun a b h => ?_
  have hxor : xtime (a ^^^ b) = 0 := (xtime_xor a b).trans (BitVec.xor_eq_zero_iff.2 h)
  exact BitVec.xor_eq_zero_iff.1 (eq_zero_of_xtime_eq_zero hxor)

/-! ## The three products (R50 to R52) -/

@[simp] theorem gfmul_one (v : Byte) : gfmul .one v = v := rfl
@[simp] theorem gfmul_two (v : Byte) : gfmul .two v = xtime v := rfl
@[simp] theorem gfmul_three (v : Byte) : gfmul .three v = v ^^^ xtime v := rfl

/-- Settles O6: the codes are the encodings of the three operations, whose products are their definitions. -/
theorem multiplierOperations : Obligations.MultiplierOperations := fun v =>
  ⟨⟨decode_encode (.gfmul1 v), gfmul_one v⟩, ⟨decode_encode (.gfmul2 v), gfmul_two v⟩,
    decode_encode (.gfmul3 v), gfmul_three v⟩

/-- Each product is linear over XOR (R55). -/
theorem gfmul_xor (k : Coef) (a b : Byte) : gfmul k (a ^^^ b) = gfmul k a ^^^ gfmul k b := by
  cases k with
  | one => rfl
  | two => exact xtime_xor a b
  | three =>
    rw [gfmul_three, xtime_xor, gfmul_three, gfmul_three]
    ac_rfl

@[simp] theorem gfmul_zero (k : Coef) : gfmul k 0#8 = 0#8 := by cases k <;> rfl

/-! ## The XOR of the products (R54, R55) -/

/-- The XOR of `g` over a list does not depend on the order of the list. -/
theorem foldr_xor_perm {α : Type} (g : α → Byte) {l l' : List α} (h : l.Perm l') :
    l.foldr (fun a acc => g a ^^^ acc) 0 = l'.foldr (fun a acc => g a ^^^ acc) 0 :=
  h.foldr_eq' (fun _ _ _ _ _ => by ac_rfl) 0

theorem dot_eq_xor (r : Quad Coef) (c : Quad Byte) :
    dot r c = gfmul (r.get 0) (c.get 0) ^^^ gfmul (r.get 1) (c.get 1) ^^^ gfmul (r.get 2) (c.get 2)
      ^^^ gfmul (r.get 3) (c.get 3) := by
  simp only [dot, BitVec.ofNat_eq_ofNat, BitVec.zero_xor]
  rfl

/-- DOT is the XOR of its four products over every order of the positions (R54). -/
theorem dot_eq_foldr_of_perm (r : Quad Coef) (c : Quad Byte) {f : List (Fin 4)} (hf : f.Perm [0, 1, 2, 3]) :
    dot r c = f.foldr (fun k acc => gfmul (r.get k) (c.get k) ^^^ acc) 0 := by
  rw [foldr_xor_perm (fun k => gfmul (r.get k) (c.get k)) hf, dot_eq_xor]
  simp [BitVec.xor_assoc]

theorem dot_zero (r : Quad Coef) : dot r ⟨0, 0, 0, 0⟩ = 0 := by
  simp [dot]

/-- Settles O7: position by position, in every order, and at the zero column. -/
theorem dotIsXorOfProducts : Obligations.DotIsXorOfProducts :=
  ⟨fun r c => ⟨dot_eq_xor r c, fun _ hf => dot_eq_foldr_of_perm r c hf⟩, dot_zero⟩

/-- On four equal bytes DOT reads only which coefficients the row has, so the row may be taken in the order
2, 3, 1, 1: the two doubles cancel, and one of the three single bytes is left (R54). -/
theorem dot_equal_bytes {r : Quad Coef} (v : Byte)
    (hr : [r.get 0, r.get 1, r.get 2, r.get 3].Perm [.two, .three, .one, .one]) :
    dot r ⟨v, v, v, v⟩ = v := by
  calc dot r ⟨v, v, v, v⟩
      = [r.get 0, r.get 1, r.get 2, r.get 3].foldr (fun k acc => gfmul k v ^^^ acc) 0 :=
        dot_eq_foldr_of_perm r ⟨v, v, v, v⟩ (.refl [0, 1, 2, 3])
    _ = xtime v ^^^ (v ^^^ xtime v ^^^ (v ^^^ (v ^^^ 0))) := foldr_xor_perm (gfmul · v) hr
    _ = (xtime v ^^^ xtime v) ^^^ (v ^^^ v) ^^^ (v ^^^ 0) := by ac_rfl
    _ = v := by simp

theorem dot_ones (c : Quad Byte) : dot ⟨.one, .one, .one, .one⟩ c = c.q0 ^^^ c.q1 ^^^ c.q2 ^^^ c.q3 :=
  dot_eq_xor _ c

/-- DOT is linear in the column, product by product (R55). -/
theorem dot_xor (r : Quad Coef) (a b : Quad Byte) :
    dot r ⟨a.q0 ^^^ b.q0, a.q1 ^^^ b.q1, a.q2 ^^^ b.q2, a.q3 ^^^ b.q3⟩ = dot r a ^^^ dot r b := by
  simp only [dot, gfmul_xor, BitVec.ofNat_eq_ofNat, BitVec.zero_xor]
  ac_rfl

/-- Settles O8: the laws of doubling, of DOT and of the third product, each its own lemma above. -/
theorem multiplierLaws : Obligations.MultiplierLaws :=
  ⟨fun _ v hr => dot_equal_bytes v hr, xtime_eq_shift_xor, xtime_bijective, dot_ones, dot_xor, dot_zero,
    gfmul_three⟩

/-! ## The three operations as instructions -/

/-- From a row of R22 the unit by itself shows its product at the probe and changes nothing else. -/
theorem observeProduct_legal {r : Byte} {s : State} (hl : legal s = true) :
    observeProduct r s = .next { s with gfOut := some r } := observeProduct_eq_next_iff.2 ⟨hl, rfl⟩

/-- Settles O9: each operation observes its product, written out with the mask before the XOR. -/
theorem multiplierInstructionsComplete : Obligations.MultiplierInstructionsComplete := by
  refine fun v s => ⟨fun hl => ⟨observeProduct_legal hl, ?two, ?three⟩, fun hl =>
    ⟨observeProduct_not_legal hl, observeProduct_not_legal hl, observeProduct_not_legal hl⟩⟩
  case two =>
    rw [← xtime_eq_shift_xor]
    exact observeProduct_legal hl
  case three =>
    rw [BitVec.xor_assoc, ← xtime_eq_shift_xor]
    exact observeProduct_legal hl

/-! ## A matrix given as codes (R53, R71) -/

/-- A code names a coefficient exactly when it is that coefficient's code (R43). -/
theorem ofCode?_eq_some_iff {c : Code2} {k : Coef} : Coef.ofCode? c = some k ↔ c = k.code := by
  constructor
  · intro h
    match c with
    | 0 => cases h
    | 1 => cases h; rfl
    | 2 => cases h; rfl
    | 3 => cases h; rfl
  · rintro rfl
    exact ofCode?_code k

/-- Every code but `00` is the code of a coefficient (R43). -/
theorem ne_zero_iff_exists_code {c : Code2} : c ≠ 0 ↔ ∃ k : Coef, k.code = c := by
  constructor
  · intro h
    match c with
    | 0 => exact absurd rfl h
    | 1 => exact ⟨.one, rfl⟩
    | 2 => exact ⟨.two, rfl⟩
    | 3 => exact ⟨.three, rfl⟩
  · rintro ⟨k, rfl⟩
    exact code_ne_zero k

theorem isSome_ofCode?_iff {c : Code2} : (Coef.ofCode? c).isSome = true ↔ c ≠ 0 := by
  rw [ne_zero_iff_exists_code, Option.isSome_iff_exists]
  exact exists_congr fun _ => ofCode?_eq_some_iff.trans eq_comm

theorem map_ofCode?_eq_map_some_iff {codes : List Code2} {ks : List Coef} :
    codes.map Coef.ofCode? = ks.map some ↔ codes = ks.map Coef.code := by
  induction codes generalizing ks with
  | nil => cases ks <;> simp
  | cons c cs ih => cases ks <;> simp [ofCode?_eq_some_iff, ih]

/-- A list of codes gives the matrix `M` exactly when it is the list of codes of `M`. -/
theorem matrixOfCodes_eq_some_iff {codes : List Code2} {M : Block Coef} :
    matrixOfCodes codes = some M ↔ codes = M.toList.map Coef.code := by
  rw [← map_ofCode?_eq_map_some_iff]
  constructor
  · intro h
    unfold matrixOfCodes at h
    split at h
    next hcodes => cases h; exact hcodes
    next => cases h
  · intro h
    rw [matrixOfCodes, h]
    rfl

/-- A matrix is taken exactly when there are sixteen codes and none is `00` (R53, R71). -/
theorem isSome_matrixOfCodes_iff {codes : List Code2} :
    (matrixOfCodes codes).isSome = true ↔ codes.length = 16 ∧ ∀ c ∈ codes, c ≠ 0 := by
  simp only [Option.isSome_iff_exists, matrixOfCodes_eq_some_iff, ne_zero_iff_exists_code]
  constructor
  · rintro ⟨M, rfl⟩
    refine ⟨List.length_map Coef.code, fun c hc => ?_⟩
    obtain ⟨k, -, hk⟩ := List.mem_map.1 hc
    exact ⟨k, hk⟩
  · rintro ⟨hlen, hcodes⟩
    obtain ⟨ks, rfl⟩ : codes ∈ Set.range (List.map Coef.code) := (Set.range_list_map Coef.code).ge hcodes
    obtain ⟨M, rfl⟩ := Block.exists_toList_eq (List.length_map Coef.code ▸ hlen)
    exact ⟨M, rfl⟩

theorem mixCodesWellFormed_iff {codes : List Code2} :
    mixCodesWellFormed codes = true ↔ codes.length = 16 ∧ ∀ c ∈ codes, c ≠ 0 := by
  simp only [mixCodesWellFormed, Bool.and_eq_true, decide_eq_true_iff, List.all_eq_true, isSome_ofCode?_iff]

/-- Settles O11: the matrix and the check ask for the same, and the matrix's codes are the codes given. -/
theorem matrixCodesChecked : Obligations.MatrixCodesChecked := fun _ =>
  ⟨isSome_matrixOfCodes_iff, Bool.eq_iff_iff.2 (isSome_matrixOfCodes_iff.trans mixCodesWellFormed_iff.symm),
    fun _ h => (matrixOfCodes_eq_some_iff.1 h).symm⟩

end Sys2Proof.Machine
end

section
/-! PROOF. The SBox of spec/41_sbox.md: the nibbles and the ROM address, the default contents as the affine map
of the inverse in GF(2^8), and what follows from that. -/

namespace Sys2Proof.Machine

open Sys2Proof.Claims

/-! ## Nibbles and address (R56, R57) -/

theorem toNat_hiNibble (b : Byte) : (hiNibble b).toNat = b.toNat / 16 := by
  rw [hiNibble, BitVec.extractLsb'_toNat, Nat.shiftRight_eq_div_pow]
  omega

theorem toNat_loNibble (b : Byte) : (loNibble b).toNat = b.toNat % 16 := BitVec.extractLsb'_toNat 0 4 b

/-- A nibble is the sum of its bits (R56). -/
theorem toNat_nibble (x : Nibble) :
    x.toNat = (x.getLsbD 3).toNat * 8 + (x.getLsbD 2).toNat * 4 + (x.getLsbD 1).toNat * 2
      + (x.getLsbD 0).toNat := by
  revert x
  decide

theorem getLsbD_hiNibble {b : Byte} {i : Nat} (h : i < 4) : (hiNibble b).getLsbD i = b.getLsbD (4 + i) := by
  simp [hiNibble, h]

theorem getLsbD_loNibble {b : Byte} {i : Nat} (h : i < 4) : (loNibble b).getLsbD i = b.getLsbD i := by
  simp [loNibble, h]

/-- The address exchanges the nibbles (R57). -/
@[simp] theorem hiNibble_romAddr (b : Byte) : hiNibble (romAddr b) = loNibble b :=
  BitVec.extractLsb'_append_eq_left

@[simp] theorem loNibble_romAddr (b : Byte) : loNibble (romAddr b) = hiNibble b :=
  BitVec.extractLsb'_append_eq_right

theorem toNat_romAddr (b : Byte) : (romAddr b).toNat = 16 * (b.toNat % 16) + b.toNat / 16 := by
  have hi := toNat_hiNibble (romAddr b)
  have lo := toNat_loNibble (romAddr b)
  rw [hiNibble_romAddr, toNat_loNibble] at hi
  rw [loNibble_romAddr, toNat_hiNibble] at lo
  omega

/-- `SUB(b)` is in the line of the low nibble, at the place of the high one (R60). -/
theorem subByte_eq_get (p : Params) (b : Byte) :
    subByte p b = (p.sboxRom.get (nibbleIndex (loNibble b))).get (nibbleIndex (hiNibble b)) := by
  rw [subByte, memReadSbox, hiNibble_romAddr, loNibble_romAddr]

/-- Settles O12: each nibble is the sum of its bits, and the address has the low one in front. -/
theorem substituteReadsSwappedAddress : Obligations.SubstituteReadsSwappedAddress := by
  refine fun p b => ⟨?high, ?low, toNat_romAddr b, fun x y hx hy => ?cell⟩
  case high => simp (disch := decide) only [toNat_nibble, getLsbD_hiNibble, Nat.reduceAdd]
  case low => simp (disch := decide) only [toNat_nibble, getLsbD_loNibble]
  case cell =>
    obtain rfl : x = nibbleIndex (hiNibble b) := Fin.ext (hx.trans (toNat_hiNibble b).symm)
    obtain rfl : y = nibbleIndex (loNibble b) := Fin.ext (hy.trans (toNat_loNibble b).symm)
    exact ⟨subByte_eq_get p b, subByte_eq_get p b⟩

/-! ## The multiplication of GF(2^8)

A map that respects XOR and doubling moves onto the left factor of a product (`map_fieldMul`). Multiplying by a
fixed byte is such a map, so right factors commute, and from there an inverse belongs to one byte only. -/

theorem map_repeat_xtime {f : Byte → Byte} (hx : ∀ a, f (xtime a) = xtime (f a)) (k : Nat) (a : Byte) :
    f (Nat.repeat xtime k a) = Nat.repeat xtime k (f a) := by
  induction k with
  | zero => rfl
  | succ k ih => exact (hx _).trans (congrArg xtime ih)

theorem map_fieldMul {f : Byte → Byte} (hxor : ∀ a b, f (a ^^^ b) = f a ^^^ f b)
    (hx : ∀ a, f (xtime a) = xtime (f a)) (a b : Byte) : f (fieldMul a b) = fieldMul (f a) b := by
  have zero : f 0 = 0 := (hxor 0 0).trans BitVec.xor_self
  unfold fieldMul
  conv_rhs => rw [← zero]
  refine (List.foldl_hom f fun acc k => ?_).symm
  split
  · rw [hxor, map_repeat_xtime hx]
  · rfl

theorem repeat_xtime_xor (k : Nat) (a b : Byte) :
    Nat.repeat xtime k (a ^^^ b) = Nat.repeat xtime k a ^^^ Nat.repeat xtime k b := by
  induction k with
  | zero => rfl
  | succ k ih => exact (congrArg xtime ih).trans (xtime_xor _ _)

theorem fieldMul_xor_left (a b t : Byte) : fieldMul (a ^^^ b) t = fieldMul a t ^^^ fieldMul b t := by
  refine List.foldl_hom₂ _ (· ^^^ ·) _ _
    (fun acc k => if t.getLsbD k then acc ^^^ Nat.repeat xtime k (a ^^^ b) else acc) 0 0 fun x y k => ?_
  split
  · rw [repeat_xtime_xor]
    ac_rfl
  · rfl

theorem fieldMul_xtime_left (a t : Byte) : fieldMul (xtime a) t = xtime (fieldMul a t) :=
  (map_fieldMul xtime_xor (fun _ => rfl) a t).symm

theorem fieldMul_right_comm (a b t : Byte) : fieldMul (fieldMul a b) t = fieldMul (fieldMul a t) b :=
  map_fieldMul (f := (fieldMul · t)) (fun x y => fieldMul_xor_left x y t) (fun x => fieldMul_xtime_left x t) a b

/-- The doublings of 1 are the single bits of a byte; checked byte by byte. -/
theorem fieldMul_one_left : ∀ b : Byte, fieldMul 1 b = b := by
  decide +kernel

theorem fieldMul_comm (a b : Byte) : fieldMul a b = fieldMul b a := by
  calc fieldMul a b
      = fieldMul (fieldMul 1 a) b := by rw [fieldMul_one_left]
    _ = fieldMul (fieldMul 1 b) a := fieldMul_right_comm 1 a b
    _ = fieldMul b a := by rw [fieldMul_one_left]

/-- `t` is the inverse of `a`, with 0 for 0 (R58). -/
def IsFieldInverse (a t : Byte) : Prop := (a = 0 ∧ t = 0) ∨ fieldMul a t = 1

theorem fieldMul_zero_right (a : Byte) : fieldMul a 0 = 0 := rfl

theorem fieldMul_zero_ne_one (a : Byte) : fieldMul a 0 ≠ 1 := fun h => by
  cases (fieldMul_zero_right a).symm.trans h

/-- `a = 1*a = (b*t)*a = (a*t)*b = b`. -/
theorem eq_of_fieldMul_eq_one {a b t : Byte} (ha : fieldMul a t = 1) (hb : fieldMul b t = 1) : a = b := by
  calc a
      = fieldMul (fieldMul b t) a := by rw [hb, fieldMul_one_left]
    _ = fieldMul (fieldMul b a) t := fieldMul_right_comm b t a
    _ = fieldMul (fieldMul a b) t := by rw [fieldMul_comm b a]
    _ = fieldMul (fieldMul a t) b := fieldMul_right_comm a b t
    _ = b := by rw [ha, fieldMul_one_left]

/-- Only one byte has the inverse `t`. -/
theorem IsFieldInverse.left_unique {a b t : Byte} (ha : IsFieldInverse a t) (hb : IsFieldInverse b t) :
    a = b := by
  obtain ⟨rfl, rfl⟩ | ha := ha
  · obtain ⟨rfl, -⟩ | hb := hb
    · rfl
    · exact absurd hb (fieldMul_zero_ne_one b)
  · obtain ⟨-, rfl⟩ | hb := hb
    · exact absurd ha (fieldMul_zero_ne_one a)
    · exact eq_of_fieldMul_eq_one ha hb

/-! ## The default contents (R58) -/

/-- The affine map of R58: bit `i` of a rotation by `r` is bit `i + r` modulo 8. -/
def sboxAffine (t : Byte) : Byte :=
  t ^^^ t.rotateRight 4 ^^^ t.rotateRight 5 ^^^ t.rotateRight 6 ^^^ t.rotateRight 7 ^^^ 0x63

/-- The inverse of `sboxAffine`. -/
def sboxAffineInv (s : Byte) : Byte := s.rotateRight 2 ^^^ s.rotateRight 5 ^^^ s.rotateRight 7 ^^^ 0x05

/-- The library's lemma has two cases; with the index taken modulo the width they are one. -/
theorem getLsbD_rotateRight_of_lt {w r i : Nat} (x : BitVec w) (hr : r < w) (hi : i < w) :
    (x.rotateRight r).getLsbD i = x.getLsbD ((i + r) % w) := by
  rw [BitVec.getLsbD_rotateRight, Nat.mod_eq_of_lt hr]
  by_cases inside : i < w - r
  · rw [Nat.mod_eq_of_lt (by omega), decide_eq_true inside, cond_true, Nat.add_comm]
  · rw [Nat.mod_eq_sub_mod (by omega), Nat.mod_eq_of_lt (by omega), decide_eq_false inside, cond_false,
      decide_eq_true hi, Bool.true_and, show i - (w - r) = i + r - w by omega]

theorem getLsbD_sboxAffine (t : Byte) {i : Nat} (hi : i < 8) :
    (sboxAffine t).getLsbD i =
      (t.getLsbD i ^^ t.getLsbD ((i + 4) % 8) ^^ t.getLsbD ((i + 5) % 8) ^^ t.getLsbD ((i + 6) % 8)
        ^^ t.getLsbD ((i + 7) % 8) ^^ (0x63 : Byte).getLsbD i) := by
  simp (disch := omega) only [sboxAffine, BitVec.getLsbD_xor, getLsbD_rotateRight_of_lt]

theorem sboxAffine_sboxAffineInv : ∀ s : Byte, sboxAffine (sboxAffineInv s) = s := by
  decide +kernel

/-- The table of R58, checked cell by cell: undoing the affine map gives the inverse of the byte. -/
theorem isFieldInverse_sboxAffineInv_subByte (b : Byte) :
    IsFieldInverse b (sboxAffineInv (subByte defaultParams b)) := by
  unfold IsFieldInverse
  revert b
  decide +kernel

/-- Settles O13: the inverse is read off `SUB(b)` by undoing the affine map, which gives `SUB(b)` back. -/
theorem defaultSboxIsInverseThenAffine : Obligations.DefaultSboxIsInverseThenAffine := by
  refine fun b => ⟨_, isFieldInverse_sboxAffineInv_subByte b, fun i hi => ?_⟩
  rw [← getLsbD_sboxAffine _ hi, sboxAffine_sboxAffineInv]

/-! ## Consequences (R61) -/

/-- Equal values of `SUB` come from equal inverses. -/
theorem subByte_defaultParams_injective : Function.Injective (subByte defaultParams) := fun a b h =>
  (h ▸ isFieldInverse_sboxAffineInv_subByte a).left_unique (isFieldInverse_sboxAffineInv_subByte b)

theorem subByte_defaultParams_ne_self : ∀ b : Byte, subByte defaultParams b ≠ b := by
  decide +kernel

theorem swapNibbles_eq_romAddr (b : Byte) : swapNibbles b = romAddr b := rfl

/-- The ROM stored the other way exchanges line and place, as the exchanged byte does (R61). -/
theorem subByte_transposeSbox (p : Params) (b : Byte) :
    subByte (transposeSbox p) b = subByte p (swapNibbles b) := by
  simp only [subByte_eq_get, transposeSbox, Block.get_ofFn, swapNibbles_eq_romAddr, hiNibble_romAddr,
    loNibble_romAddr]

/-- Settles O14: `SUB` is injective on a finite type, so bytes with one image are equal. -/
theorem defaultSboxConsequences : Obligations.DefaultSboxConsequences :=
  ⟨Finite.injective_iff_bijective.1 subByte_defaultParams_injective, subByte_defaultParams_ne_self, by decide,
    fun _ => subByte_defaultParams_injective.eq_iff, subByte_transposeSbox⟩

end Sys2Proof.Machine
end

section
/-! PROOF. The state matrix of spec/42_statematrix.md: the converter, and the position an input byte goes to. -/

namespace Sys2Proof

/-! ## The converter (R63, R64) -/

/-- R65 solved for the source: as `TPOS` is its own inverse, what stands at `n` came from `TPOS(n)`. -/
theorem toCM_get {α : Type} (inp : Block α) (n : Fin 16) : (toCM inp).get n = inp.get (tpos n) := by
  simpa only [tpos_tpos] using toCM_get_tpos inp (tpos n)

theorem map_tpos_finRange :
    (List.finRange 16).map tpos = [0, 4, 8, 12, 1, 5, 9, 13, 2, 6, 10, 14, 3, 7, 11, 15] := by
  decide

theorem toCM_toList {α : Type} (inp : Block α) :
    (toCM inp).toList = ([0, 4, 8, 12, 1, 5, 9, 13, 2, 6, 10, 14, 3, 7, 11, 15] : List (Fin 16)).map inp.get :=
  calc (toCM inp).toList
      = (List.finRange 16).map (toCM inp).get := rfl
    _ = (List.finRange 16).map (inp.get ∘ tpos) := List.map_congr_left fun n _ => toCM_get inp n
    _ = ((List.finRange 16).map tpos).map inp.get := List.map_map.symm
    _ = _ := by rw [map_tpos_finRange]

theorem toCM_toCM {α : Type} (inp : Block α) : toCM (toCM inp) = inp :=
  Block.ext_cell fun i j => by rw [toCM_get_cell, toCM_get_cell]

end Sys2Proof

namespace Sys2Proof.Machine

/-- Settles O15: the lanes are exchanged as row and column are, and the printed list is `TPOS` along the indices. -/
theorem converterTransposes : Obligations.ConverterTransposes := fun inp =>
  ⟨toCM_get_cell inp, toCM_toList inp, toCM_toCM inp⟩

/-! ## Ingest positions (R65) -/

/-- Settles O16: `TPOS` is an involution and so a bijection, and it is `TOCM` solved for the destination. -/
theorem ingestPositions : Obligations.IngestPositions :=
  ⟨fun n => ⟨rfl, tpos_tpos n⟩, Function.Involutive.bijective tpos_tpos, toCM_get_tpos⟩

end Sys2Proof.Machine
end

section
/-! PROOF. The round operations and TRACE of spec/43_round.md: the laws of the operations, the states of a run, and
the micro-steps from the reset to the last of them (with spec/44_controller.md). -/

namespace Sys2Proof

@[simp] theorem get_col {α : Type} (W : Block α) (j k : Fin 4) : (col W j).get k = W.get (cell k j) := by
  fin_cases k <;> rfl

@[simp] theorem get_mixRow (p : Params) (i k : Fin 4) : (mixRow p i).get k = p.mixMatrix.get (cell i k) := by
  fin_cases k <;> rfl

theorem Block.map_bijective {α β : Type} {f : α → β} (hf : Function.Bijective f) :
    Function.Bijective (Block.map f) := by
  obtain ⟨g, left, right⟩ := Function.bijective_iff_has_inverse.1 hf
  refine Function.bijective_iff_has_inverse.2 ⟨Block.map g, fun b => ?_, fun b => ?_⟩
  · exact Block.ext_get fun i => by rw [Block.get_map, Block.get_map, left]
  · exact Block.ext_get fun i => by rw [Block.get_map, Block.get_map, right]

theorem Block.drop_toList {α : Type} (b : Block α) (n : Fin 16) :
    b.toList.drop n.val = b.get n :: b.toList.drop (n.val + 1) := by
  have toList : b.toList = List.ofFn b.get := rfl
  rw [toList, List.drop_eq_getElem_cons (by simp [n.isLt]), List.getElem_ofFn]

end Sys2Proof

namespace Sys2Proof.Machine

open Sys2Proof.Claims

/-! ## The algebra of the round operations (R70, R72, R75) -/

/-- `SHIFTROWS` rotates row `r` left by `r`: the column index is added in `Fin 4` (R70). -/
theorem shiftRows_get_cell_add {α : Type} (W : Block α) (r j : Fin 4) :
    (shiftRows W).get (cell r j) = W.get (cell r (j + r)) := shiftRows_get_cell W r j

/-- Four rotations by `r` are a rotation by `4 * r`, a whole turn. -/
theorem shiftRows_four {α : Type} (W : Block α) :
    shiftRows (shiftRows (shiftRows (shiftRows W))) = W := by
  have turn : ∀ r j : Fin 4, j + r + r + r + r = j := by decide
  refine Block.ext_cell fun r j => ?_
  simp only [shiftRows_get_cell_add, turn]

/-- One moves bytes, the other changes them where they are (R75 (c)). -/
theorem shiftRows_subBytes (p : Params) (W : Block Byte) :
    shiftRows (subBytes p W) = subBytes p (shiftRows W) :=
  Block.ext_cell fun r j => by simp only [shiftRows_get_cell, subBytes_get]

/-- `MIXCOLUMNS` is linear because each product of DOT is (R72). -/
theorem mixColumns_xor (p : Params) (A B : Block Byte) :
    mixColumns p (Block.ofFn fun m => A.get m ^^^ B.get m) =
      Block.ofFn fun m => (mixColumns p A).get m ^^^ (mixColumns p B).get m := by
  refine Block.ext_cell fun i j => ?_
  simp only [Block.get_ofFn, mixColumns_get_cell, dot_eq_xor, get_col, gfmul_xor]
  ac_rfl

/-! ### The matrix of R71

Its rows are the rotations of 2, 3, 1, 1, so two applications leave, in each column, `w ^^^ 4*(w ^^^ w')` at
every place, where `w'` is the byte two rows below; the other terms cancel. Applied to itself, that is the
identity, because `w ^^^ w'` does not change. -/

theorem mixMatrix_circulant : ∀ i : Fin 4,
    mixMatrix.get (cell i i) = .two ∧ mixMatrix.get (cell i (i + 1)) = .three ∧
      mixMatrix.get (cell i (i + 2)) = .one ∧ mixMatrix.get (cell i (i + 3)) = .one := by
  decide

theorem rotation_perm : ∀ i : Fin 4, [i, i + 1, i + 2, i + 3].Perm [0, 1, 2, 3] := by
  decide

section DefaultMatrix
variable {p : Params} (hp : p.mixMatrix = mixMatrix)
include hp

/-- DOT in the order that starts at the diagonal. -/
theorem mixColumns_get_cell_of_default (W : Block Byte) (i j : Fin 4) :
    (mixColumns p W).get (cell i j) = xtime (W.get (cell i j) ^^^ W.get (cell (i + 1) j)) ^^^
      W.get (cell (i + 1) j) ^^^ W.get (cell (i + 2) j) ^^^ W.get (cell (i + 3) j) := by
  obtain ⟨h0, h1, h2, h3⟩ := mixMatrix_circulant i
  rw [mixColumns_get_cell, dot_eq_foldr_of_perm _ _ (rotation_perm i), xtime_xor]
  simp only [List.foldr_cons, List.foldr_nil, get_mixRow, get_col, hp, h0, h1, h2, h3, gfmul_one,
    gfmul_two, gfmul_three, BitVec.ofNat_eq_ofNat, BitVec.xor_zero]
  ac_rfl

theorem mixColumns_mixColumns_get_cell (W : Block Byte) (i j : Fin 4) :
    (mixColumns p (mixColumns p W)).get (cell i j) =
      W.get (cell i j) ^^^ xtime (xtime (W.get (cell i j) ^^^ W.get (cell (i + 2) j))) := by
  have around : i + 1 + 1 = i + 2 ∧ i + 1 + 2 = i + 3 ∧ i + 1 + 3 = i ∧ i + 2 + 1 = i + 3 ∧ i + 2 + 2 = i ∧
    i + 2 + 3 = i + 1 ∧ i + 3 + 1 = i ∧ i + 3 + 2 = i + 1 ∧ i + 3 + 3 = i + 2 := by
    revert i; decide
  simp only [mixColumns_get_cell_of_default hp, around, xtime_xor]
  ac_nf
  simp only [xor_cancel_left, BitVec.xor_self, BitVec.xor_zero]

theorem mixColumns_four (W : Block Byte) :
    mixColumns p (mixColumns p (mixColumns p (mixColumns p W))) = W := by
  have around : ∀ i : Fin 4, i + 2 + 2 = i := by decide
  refine Block.ext_cell fun i j => ?_
  simp only [mixColumns_mixColumns_get_cell hp, around, xtime_xor]
  ac_nf
  simp only [xor_cancel_left]

end DefaultMatrix

/-- Settles O17: each law is a lemma above, cell by cell. -/
theorem roundOperationAlgebra : Obligations.RoundOperationAlgebra :=
  ⟨shiftRows_four, shiftRows_subBytes, mixColumns_xor, fun _ W hp => mixColumns_four hp W⟩

/-! ## The states of TRACE (R73, R74) -/

theorem round_eq_of_lt {i : Fin 10} (h : i.val < 9) (p : Params) (W : Block Byte) :
    round p i W = mixColumns p (shiftRows (subBytes p W)) := if_pos h

theorem round_nine (p : Params) (W : Block Byte) : round p 9 W = shiftRows (subBytes p W) := rfl

/-- The state after the first `k` rounds of the run on `inp`. -/
def roundState (p : Params) (inp : Block Byte) : Nat → Block Byte
  | 0 => toCM inp
  | k + 1 => round p (Fin.ofNat 10 k) (roundState p inp k)

/-- TRACE is the states after one to ten rounds. -/
theorem trace_eq_map_roundState (p : Params) (inp : Block Byte) :
    trace p inp = (List.range 10).map fun k => roundState p inp (k + 1) := rfl

theorem trace_getElem? (p : Params) (inp : Block Byte) {k : Nat} (h : k < 10) :
    (trace p inp)[k]? = some (roundState p inp (k + 1)) := by
  rw [trace_eq_map_roundState, List.getElem?_map, List.getElem?_range h, Option.map_some]

theorem roundState_succ_of_lt (p : Params) (inp : Block Byte) {k : Nat} (h : k < 9) :
    roundState p inp (k + 1) = mixColumns p (shiftRows (subBytes p (roundState p inp k))) :=
  round_eq_of_lt (Nat.mod_lt_of_lt h) p _

/-- Settles O18: the states after one to ten rounds, each a round of the one before. -/
theorem traceIsTenRounds : Obligations.TraceIsTenRounds := by
  refine fun p inp => ⟨fun i => roundState p inp (i.val + 1), trace_eq_map_roundState p inp,
    roundState_succ_of_lt p inp (by decide), fun i hpos hlt => ?_, round_nine p _⟩
  simp only [Nat.sub_add_cancel hpos]
  exact roundState_succ_of_lt p inp hlt

/-! ## Sixteen equal bytes (R75 (d)) -/

@[simp] theorem get_equalBytes (v : Byte) (m : Fin 16) : (equalBytes v).get m = v := Block.get_ofFn _ m

theorem col_equalBytes (v : Byte) (j : Fin 4) : col (equalBytes v) j = ⟨v, v, v, v⟩ := by
  simp only [col, get_equalBytes]

theorem toCM_equalBytes (v : Byte) : toCM (equalBytes v) = equalBytes v :=
  Block.ext_cell fun i j => by rw [toCM_get_cell, get_equalBytes, get_equalBytes]

theorem subBytes_equalBytes (p : Params) (v : Byte) :
    subBytes p (equalBytes v) = equalBytes (subByte p v) :=
  Block.ext_get fun m => by rw [subBytes_get, get_equalBytes, get_equalBytes]

theorem shiftRows_equalBytes (v : Byte) : shiftRows (equalBytes v) = equalBytes v :=
  Block.ext_cell fun r j => by rw [shiftRows_get_cell, get_equalBytes, get_equalBytes]

section DefaultMatrix
variable {p : Params} (hp : p.mixMatrix = mixMatrix)
include hp

/-- Every row of the matrix is some order of 2, 3, 1, 1, so DOT leaves four equal bytes as they are (R54). -/
theorem mixColumns_equalBytes (v : Byte) : mixColumns p (equalBytes v) = equalBytes v := by
  have rows : ∀ i : Fin 4, [mixMatrix.get (cell i 0), mixMatrix.get (cell i 1), mixMatrix.get (cell i 2),
      mixMatrix.get (cell i 3)].Perm [.two, .three, .one, .one] := by decide
  refine Block.ext_cell fun i j => ?_
  rw [mixColumns_get_cell, col_equalBytes, get_equalBytes]
  exact dot_equal_bytes v (by simpa only [get_mixRow, hp] using rows i)

theorem round_equalBytes (i : Fin 10) (v : Byte) :
    round p i (equalBytes v) = equalBytes (subByte p v) := by
  rw [round, subBytes_equalBytes, shiftRows_equalBytes, mixColumns_equalBytes hp, ite_self]

theorem roundState_equalBytes (v : Byte) (k : Nat) :
    roundState p (equalBytes v) k = equalBytes (Nat.repeat (subByte p) k v) := by
  induction k with
  | zero => exact toCM_equalBytes v
  | succ k ih => rw [roundState, ih, round_equalBytes hp, Nat.repeat]

end DefaultMatrix

/-- Settles O19: a round applies `SUB` once to the byte all sixteen share. -/
theorem equalBytesStayEqual : Obligations.EqualBytesStayEqual := fun p v hp i hi => by
  rw [trace_getElem? p _ hi, roundState_equalBytes hp]

/-! ## No information is lost (R75 (b)) -/

/-- What is the identity after four applications has its third power for an inverse. -/
theorem bijective_of_four {α : Type} {f : α → α} (h : ∀ a, f (f (f (f a))) = a) : Function.Bijective f :=
  Function.bijective_iff_has_inverse.2 ⟨fun a => f (f (f a)), h, h⟩

theorem subBytes_bijective : Function.Bijective (subBytes defaultParams) :=
  Block.map_bijective defaultSboxConsequences.1

theorem shiftRows_bijective {α : Type} : Function.Bijective (shiftRows (α := α)) :=
  bijective_of_four shiftRows_four

theorem mixColumns_bijective : Function.Bijective (mixColumns defaultParams) :=
  bijective_of_four (mixColumns_four rfl)

theorem round_injective (i : Fin 10) : Function.Injective (round defaultParams i) := fun a b h => by
  unfold round at h
  apply subBytes_bijective.injective
  apply shiftRows_bijective.injective
  split at h
  · exact mixColumns_bijective.injective h
  · exact h

theorem roundState_injective (k : Nat) : Function.Injective fun inp => roundState defaultParams inp k := by
  induction k with
  | zero => exact Function.LeftInverse.injective toCM_toCM
  | succ k ih => exact (round_injective _).comp ih

/-- Settles O20: every operation, hence every round, can be undone. -/
theorem traceLosesNoInformation : Obligations.TraceLosesNoInformation := by
  refine ⟨subBytes_bijective, shiftRows_bijective, mixColumns_bijective, fun a b h => ?_⟩
  rw [trace_getElem? _ a (by decide), trace_getElem? _ b (by decide)] at h
  exact roundState_injective 10 (Option.some.inj h)

/-! ## Micro-steps on sixteen values (R79 to R83) -/

section Busy
variable {s : State} {W : Block Byte} (hl : legal s = true) (hf : s.fsm = .busy) (hq : headQuiet s = true)
  (hst : s.st = valued W)
include hl hf hq

/-- In `BUSY` the step is the micro-op that `PH` selects, whose preconditions the strobe and the host do not
touch (R79). -/
theorem step_microOp {p : BitVec 2} {i : Instr} {body : State → State} (hp : s.ph = p)
    (hd : decode (.uop p) = .ok i) (hi : exec i = microStep p body) :
    step s = .next (body (newPeriod s.host.tail s)) := by
  subst hp
  rw [busy_step hl hf hq, runCode_of_ok hd, hi]
  exact microStep_selected hl hf rfl

include hst

theorem step_sub (hp : s.ph = 0) :
    step s = .next { s with st := valued (subBytes s.params W), ph := 1, host := s.host.tail,
                            strobe := none } := by
  rw [step_microOp hl hf hq hp rfl rfl, doSub, newPeriod_st, hst, valued, subLanes_some]
  rfl

theorem step_shr (hp : s.ph = 1) (hr : s.rnd.toNat < 9) :
    step s = .next { s with st := valued (shiftRows W), ph := 2, host := s.host.tail, strobe := none } := by
  rw [step_microOp hl hf hq hp rfl rfl]
  obtain ⟨-, h⟩ | ⟨hge, -⟩ := doShr_cases (newPeriod s.host.tail s)
  · rw [h, newPeriod_st, hst, valued, shiftLanes_some]
    rfl
  · exact absurd hr hge.not_gt

theorem step_shr_last (hp : s.ph = 1) (hr : s.rnd.toNat = 9) :
    step s = .next { s with st := valued (shiftRows W), rnd := 10, ph := 0, fsm := .done, host := s.host.tail,
                            out := s.out ++ [⟨s.rnd, valued (shiftRows W)⟩], strobe := some s.rnd } := by
  rw [step_microOp hl hf hq hp rfl rfl]
  obtain ⟨hlt, -⟩ | ⟨-, h⟩ := doShr_cases (newPeriod s.host.tail s)
  · exact absurd hr hlt.ne
  · rw [h, newPeriod_st, hst, valued, shiftLanes_some]
    rfl

theorem step_mix (hp : s.ph = 2) (hr : s.rnd.toNat < 9) :
    step s = .next { s with st := valued (mixColumns s.params W), rnd := s.rnd + 1, ph := 0,
                            host := s.host.tail, out := s.out ++ [⟨s.rnd, valued (mixColumns s.params W)⟩],
                            strobe := some s.rnd } := by
  rw [step_microOp hl hf hq hp rfl rfl, doMix, newPeriod_st, hst, valued, mixLanes_some]
  obtain ⟨-, h⟩ | ⟨hge, -⟩ := roundEnd_cases
    { newPeriod s.host.tail s with st := (mixColumns s.params W).map some }
  · exact congrArg Host.Outcome.next h
  · exact absurd hr hge.not_gt

end Busy

/-! ## Runs of several steps -/

theorem steps_succ {s t : State} (h : step s = .next t) (k : Nat) : steps (k + 1) s = steps k t := by
  rw [steps, h]

theorem steps_add {j : Nat} {s t : State} (h : steps j s = .next t) (k : Nat) :
    steps (j + k) s = steps k t := by
  induction j generalizing s with
  | zero => cases h; rw [Nat.zero_add]
  | succ j ih =>
    rw [Nat.succ_add]
    cases hs : step s with
    | next u => rw [steps_succ hs] at h ⊢; exact ih h
    | fault | refused => rw [steps, hs] at h; cases h

/-- What every step keeps, a run keeps. -/
theorem steps_invariant {P : State → Prop} (keep : ∀ s t, P s → step s = .next t → P t) {k : Nat}
    {s t : State} (hs : P s) (h : steps k s = .next t) : P t := by
  induction k generalizing s with
  | zero => cases h; exact hs
  | succ k ih =>
    cases hu : step s with
    | next u => exact ih (keep s u hs hu) (steps_succ hu k ▸ h)
    | fault | refused => rw [steps, hu] at h; cases h

/-! ## One round (R79) -/

/-- Within a round, `ST` and the strobe may change, and `PH` may go to another phase of the round (R22). -/
theorem legal_setPhase {s : State} (hl : legal s = true) (hf : s.fsm = .busy) {p : BitVec 2}
    (hp : p = 1 ∨ p = 2 ∧ s.rnd.toNat < 9) (S : Block (Option Byte)) (h : List HostInput) :
    legal { s with st := S, ph := p, host := h, strobe := none } = true := by
  obtain ⟨hicnt, hrnd, -, herr, hlen⟩ := (legal_busy_iff hf).1 hl
  exact (legal_busy_iff (by exact hf)).2 ⟨hicnt, hrnd, .inr hp, herr, hlen⟩

theorem headQuiet_of_host_nil {s : State} (hh : s.host = []) : headQuiet s = true := by
  rw [headQuiet, hh]

/-- Settles O47: SUB, SHR and, before round 9, MIX, each on the values the one before left. -/
theorem microStepsMakeARound : Obligations.MicroStepsMakeARound := by
  intro s W i hl hf hp hr hst hh
  have tail : s.host.tail = [] := by rw [hh, List.tail_nil]
  have sub := step_sub hl hf (headQuiet_of_host_nil hh) hst hp
  have legal₁ := legal_setPhase hl hf (.inl rfl) (valued (subBytes s.params W)) s.host.tail
  by_cases h9 : i.val < 9
  · have hr9 : s.rnd.toNat < 9 := hr ▸ h9
    have shr := step_shr legal₁ hf (headQuiet_of_host_nil tail) rfl rfl hr9
    have legal₂ := legal_setPhase hl hf (.inr ⟨rfl, hr9⟩) (valued (shiftRows (subBytes s.params W)))
      s.host.tail.tail
    have mix := step_mix legal₂ hf (headQuiet_of_host_nil (by rw [tail, List.tail_nil])) rfl rfl hr9
    rw [if_pos h9, if_pos h9, steps_succ sub, steps_succ shr, steps_succ mix, round_eq_of_lt h9]
    simp [steps, hh, hf]
  · obtain rfl : i = 9 := Fin.ext (show i.val = 9 by omega)
    have rnd : s.rnd = 9 := BitVec.eq_of_toNat_eq hr
    have shr := step_shr_last legal₁ hf (headQuiet_of_host_nil tail) rfl rfl hr
    rw [if_neg h9, if_neg h9, steps_succ sub, steps_succ shr, round_nine]
    simp [steps, hh, rnd]

/-! ## Loading (R76, R77, R78) -/

/-- A word at the next edge in `LOAD` is accepted. -/
theorem step_command {s : State} {i : Instr} {w : CmdWord} {body : State → State} {rest : List HostInput}
    (hl : legal s = true) (hf : s.fsm = .load) (hh : s.host = present w :: rest)
    (hd : decode (.cw w) = .ok i) (hi : exec i = accept body) :
    step s = .next (body (newPeriod rest s)) := by
  have hp : pending s = present w :: rest := pending_append (before := []) hh (by simp) (nothingDue_word hl hf)
  rw [step_of_issue (fetch_command hl hf hp) hd, hi]
  exact accept_load hl hf

theorem step_ldb {s : State} {d : Byte} {rest : List HostInput} (hl : legal s = true) (hf : s.fsm = .load)
    (hh : s.host = present (ldbWord d) :: rest) : step s = .next (loadByte d (newPeriod rest s)) :=
  step_command hl hf hh (decodeCommand_ldb d) rfl

theorem step_run {s : State} {rest : List HostInput} (hl : legal s = true) (hf : s.fsm = .load)
    (hh : s.host = present runWord :: rest) : step s = .next (startRun (newPeriod rest s)) :=
  step_command hl hf hh decodeCommand_run rfl

/-- The first `n` input bytes are in, and the host is about to present the others and `RUN`. -/
structure LoadedBytes (p : Params) (inp : Block Byte) (n : Nat) (s : State) : Prop where
  inv : Inv s
  fsm : s.fsm = .load
  icnt : s.icnt.toNat = n
  st : ∀ m : Fin 16, m.val < n → s.st.get (tpos m) = some (inp.get m)
  host : s.host = ((inp.toList.drop n).map fun d => present (ldbWord d)) ++ [present runWord]
  params : s.params = p

theorem loadedBytes_zero (p : Params) (inp : Block Byte) :
    LoadedBytes p inp 0 { State.reset with params := p, host := loadAndRun inp } :=
  ⟨(resetMeetsTheInvariant _ p).1, rfl, rfl, fun _ h => absurd h (Nat.not_lt_zero _), rfl, rfl⟩

theorem LoadedBytes.next {p : Params} {inp : Block Byte} {n : Fin 16} {s : State}
    (h : LoadedBytes p inp n s) : ∃ t, step s = .next t ∧ LoadedBytes p inp (n.val + 1) t := by
  have hs := step_ldb (d := inp.get n) h.inv.table h.fsm (by rw [h.host, Block.drop_toList]; rfl)
  obtain ⟨hlt, hb⟩ | ⟨hge, -⟩ := loadByte_cases (inp.get n) (newPeriod _ s)
  · rw [hb] at hs
    have hn : (⟨s.icnt.toNat, hlt⟩ : Fin 16) = n := Fin.ext h.icnt
    refine ⟨_, hs, ⟨stepKeepsTheInvariant _ _ h.inv hs, h.fsm, ?icnt, fun m hm => ?st, rfl, h.params⟩⟩
    case icnt =>
      have := h.icnt
      simp only [newPeriod_icnt]
      bv_omega
    case st =>
      simp only [newPeriod_icnt, newPeriod_st, hn, Block.get_set, tpos_injective.eq_iff]
      split
      case isTrue hmn => rw [hmn]
      case isFalse hmn => exact h.st m (by omega)
  · exact absurd (h.icnt ▸ hge) n.isLt.not_ge

/-- Every byte of the input is accepted (R77). -/
theorem exists_steps_loadedBytes (p : Params) (inp : Block Byte) {n : Nat} (hn : n ≤ 16) :
    ∃ t, steps n { State.reset with params := p, host := loadAndRun inp } = .next t ∧
      LoadedBytes p inp n t := by
  induction n with
  | zero => exact ⟨_, rfl, loadedBytes_zero p inp⟩
  | succ n ih =>
    obtain ⟨u, hu, hload⟩ := ih (by omega)
    obtain ⟨t, ht, hnext⟩ := hload.next (n := ⟨n, hn⟩)
    exact ⟨t, by rw [steps_add hu, steps_succ ht, steps], hnext⟩

/-! ## The rounds of a run (R74, R83, R85) -/

/-- `k` rounds of the run on `inp` are done: the next begins, or after ten of them the run is over. -/
structure RoundsDone (p : Params) (inp : Block Byte) (k : Nat) (s : State) : Prop where
  inv : Inv s
  fsm : s.fsm = if k < 10 then .busy else .done
  rnd : s.rnd.toNat = k
  ph : s.ph = 0
  st : s.st = valued (roundState p inp k)
  out : s.out = emissionsFrom 0 ((List.range k).map fun r => roundState p inp (r + 1))
  host : s.host = []
  params : s.params = p

/-- With all sixteen bytes in, `RUN` starts round 0 (R78). -/
theorem LoadedBytes.run {p : Params} {inp : Block Byte} {s : State} (h : LoadedBytes p inp 16 s) :
    ∃ t, step s = .next t ∧ RoundsDone p inp 0 t := by
  obtain ⟨-, -, -, -, hout⟩ := (legal_load_iff h.fsm).1 h.inv.table
  have hs := step_run h.inv.table h.fsm (rest := []) h.host
  obtain ⟨-, hb⟩ | ⟨hne, -⟩ := startRun_cases (newPeriod [] s)
  · rw [hb] at hs
    refine ⟨_, hs, ⟨stepKeepsTheInvariant _ _ h.inv hs, rfl, rfl, rfl, ?st, hout, rfl, h.params⟩⟩
    case st =>
      refine Block.ext_get fun m => ?_
      rw [← tpos_tpos m]
      exact (h.st (tpos m) (tpos m).isLt).trans (by simp [valued, roundState, toCM_get])
  · exact absurd (BitVec.eq_of_toNat_eq h.icnt) hne

theorem emissionsFrom_concat (r : Nat) (Ws : List (Block Byte)) (W : Block Byte) :
    emissionsFrom r (Ws ++ [W]) = emissionsFrom r Ws ++ [⟨BitVec.ofNat 4 (r + Ws.length), valued W⟩] := by
  induction Ws generalizing r with
  | nil => rfl
  | cons V Vs ih =>
    simp only [List.cons_append, emissionsFrom, ih, List.length_cons, Nat.succ_add_eq_add_succ]

theorem RoundsDone.next {p : Params} {inp : Block Byte} {k : Nat} {s : State} (h : RoundsDone p inp k s)
    (hk : k < 10) :
    ∃ t, steps (if k < 9 then 3 else 2) s = .next t ∧ RoundsDone p inp (k + 1) t := by
  have hrun := microStepsMakeARound s (roundState p inp k) (Fin.ofNat 10 k) h.inv.table
    (h.fsm.trans (if_pos hk)) h.ph (h.rnd.trans (Nat.mod_eq_of_lt hk).symm) h.st h.host
  rw [Fin.val_ofNat, Nat.mod_eq_of_lt hk, h.params] at hrun
  refine ⟨_, hrun, ⟨steps_invariant stepKeepsTheInvariant h.inv hrun, ?fsm, ?rnd, rfl, rfl, ?out, h.host, rfl⟩⟩
  case fsm => simp only [Nat.add_lt_add_iff_right (m := 9) (k := 1)]
  case rnd =>
    have := h.rnd
    simp only
    bv_omega
  case out =>
    have index : s.rnd = BitVec.ofNat 4 k := by rw [← h.rnd, BitVec.ofNat_toNat, BitVec.setWidth_eq]
    rw [List.range_succ, List.map_append, List.map_singleton, emissionsFrom_concat, List.length_map,
      List.length_range, Nat.zero_add, ← h.out, ← index]
    rfl

/-- Every round before the last takes three micro-steps (R79). -/
theorem RoundsDone.exists_steps {p : Params} {inp : Block Byte} {k : Nat} {s : State}
    (h : RoundsDone p inp 0 s) (hk : k ≤ 9) : ∃ t, steps (3 * k) s = .next t ∧ RoundsDone p inp k t := by
  induction k with
  | zero => exact ⟨s, rfl, h⟩
  | succ k ih =>
    obtain ⟨u, hu, hdone⟩ := ih (by omega)
    obtain ⟨t, ht, hnext⟩ := hdone.next (by omega)
    rw [if_pos (Nat.lt_of_succ_le hk)] at ht
    exact ⟨t, by rw [Nat.mul_succ, steps_add hu, ht], hnext⟩

/-- With two for the last round, that makes 29 (R85). -/
theorem RoundsDone.finish {p : Params} {inp : Block Byte} {s : State} (h : RoundsDone p inp 0 s) :
    ∃ t, steps 29 s = .next t ∧ RoundsDone p inp 10 t := by
  obtain ⟨u, hu, hdone⟩ := h.exists_steps (le_refl 9)
  obtain ⟨t, ht, hnext⟩ := hdone.next (by decide)
  exact ⟨t, (steps_add hu 2).trans ht, hnext⟩

/-! ## The run stays in `BUSY` -/

theorem roundEnd_host (s : State) : (roundEnd s).host = s.host := by
  obtain ⟨-, h⟩ | ⟨-, h⟩ := roundEnd_cases s <;> simp [h]

theorem doShr_host (s : State) : (doShr s).host = s.host := by
  obtain ⟨-, h⟩ | ⟨-, h⟩ := doShr_cases s <;> simp [h]

/-- With nothing left for the host to drive, only a micro-step is possible (R9). -/
theorem busy_of_step {s t : State} (hh : s.host = []) (h : step s = .next t) : s.fsm = .busy ∧ t.host = [] := by
  have none : pending s = [] := by rw [pending, hh, List.dropWhile_nil]
  cases step_cases h with
  | reset _ _ hp | ldb _ _ _ _ _ hp | run _ _ _ _ hp | reserved _ _ _ _ hp => cases none.symm.trans hp
  | sub _ _ hf _ hr _ ht => exact ⟨hf, by rw [ht, hr, hh]; rfl⟩
  | shr _ _ hf _ hr _ ht => exact ⟨hf, by rw [ht, hr, hh, doShr_host]; rfl⟩
  | mix _ _ hf _ hr _ ht => exact ⟨hf, by rw [ht, hr, hh, doMix, roundEnd_host]; rfl⟩

/-- So before the last step of a run without a host every state is in `BUSY`. -/
theorem busy_before {n k : Nat} {s t : State} (hh : s.host = []) (h : steps n s = .next t) (hk : k < n) :
    ∃ u, steps k s = .next u ∧ u.fsm = .busy := by
  induction n generalizing s k with
  | zero => exact absurd hk (Nat.not_lt_zero k)
  | succ n ih =>
    cases hs : step s with
    | fault | refused => rw [steps, hs] at h; cases h
    | next v =>
      obtain ⟨hf, hv⟩ := busy_of_step hh hs
      cases k with
      | zero => exact ⟨s, rfl, hf⟩
      | succ k =>
        rw [steps_succ hs] at h ⊢
        exact ih hv h (Nat.lt_of_succ_lt_succ hk)

/-- Settles O49: sixteen bytes and `RUN` lead to round 0, and from there the rounds follow TRACE to the tenth. -/
theorem completeRunComputesTrace : Obligations.CompleteRunComputesTrace := by
  intro p inp
  obtain ⟨l, hload, loaded⟩ := exists_steps_loadedBytes p inp (le_refl 16)
  obtain ⟨b, hrun, started⟩ := loaded.run
  obtain ⟨t, hrounds, finished⟩ := started.finish
  have start : steps 17 { State.reset with params := p, host := loadAndRun inp } = .next b := by
    rw [steps_add hload 1, steps_succ hrun, steps]
  refine ⟨⟨b, start, started.fsm, started.st⟩, fun k hk => ?_, t, roundState p inp 10, ?_, finished.fsm,
    finished.out, trace_getElem? p inp (by decide), finished.st⟩
  · rw [steps_add start]
    exact busy_before started.host hrounds hk
  · rw [steps_add start, hrounds]

end Sys2Proof.Machine
end

section
/-! PROOF. spec/44_controller.md: every step keeps to the computation of TRACE. The commands put the
input where TOCM does (R77, R78), the micro-steps carry the state of a round from phase to phase (R80 to R82),
and the end of a round emits it (R83). -/

namespace Sys2Proof.Machine

/-! ## The emissions of a run -/

/-- The emissions of the first `k` rounds of the run on `inp`. -/
def roundEmissions (p : Params) (inp : Block Byte) (k : Nat) : List Emission :=
  emissionsFrom 0 ((List.range k).map fun r => roundState p inp (r + 1))

theorem roundEmissions_succ (p : Params) (inp : Block Byte) (r : BitVec 4) :
    roundEmissions p inp (r.toNat + 1) =
      roundEmissions p inp r.toNat ++ [⟨r, valued (roundState p inp (r.toNat + 1))⟩] := by
  rw [roundEmissions, List.range_succ, List.map_append, List.map_singleton, emissionsFrom_concat,
    List.length_map, List.length_range, Nat.zero_add, BitVec.ofNat_toNat, BitVec.setWidth_eq]
  rfl

theorem trace_take (p : Params) (inp : Block Byte) {k : Nat} (hk : k ≤ 10) :
    (trace p inp).take k = (List.range k).map fun r => roundState p inp (r + 1) := by
  rw [trace_eq_map_roundState, ← List.map_take, List.take_range, Nat.min_eq_left hk]

theorem toCM_cons_trace_getElem? (p : Params) (inp : Block Byte) {k : Nat} (hk : k ≤ 10) :
    (toCM inp :: trace p inp)[k]? = some (roundState p inp k) := by
  cases k with
  | zero => rfl
  | succ k => exact trace_getElem? p inp hk

/-! ## What an input explains, by mode -/

/-- Up to `RUN`: the bytes loaded so far stand where TOCM puts them (R77). -/
theorem followsInput_loading {inp : Block Byte} {s : State} (hf : s.fsm = .load ∨ s.fsm = .fault) :
    FollowsInput inp s ↔ ∀ n : Fin 16, n.val < s.icnt.toNat → s.st.get (tpos n) = some (inp.get n) := by
  obtain hf | hf := hf <;> simp only [FollowsInput, hf]

/-- From `RUN` on: `OUT` is the rounds done, and `ST` the state of the phase of the current one (R85). -/
theorem followsInput_running {inp : Block Byte} {s : State} (hf : s.fsm = .busy ∨ s.fsm = .done)
    (hr : s.rnd.toNat ≤ 10) :
    FollowsInput inp s ↔ s.out = roundEmissions s.params inp s.rnd.toNat ∧
      s.st = valued (atPhase s.params (roundState s.params inp s.rnd.toNat) s.ph) := by
  obtain hf | hf := hf <;>
    simp [FollowsInput, hf, trace_take s.params inp hr, toCM_cons_trace_getElem? s.params inp hr,
      roundEmissions]

/-- With sixteen bytes in, `ST` is `TOCM` of the input (R77). -/
theorem FollowsInput.st_of_loaded {inp : Block Byte} {s : State} (h : FollowsInput inp s)
    (hf : s.fsm = .load) (hi : s.icnt.toNat = 16) : s.st = valued (toCM inp) := by
  refine Block.ext_get fun m => ?_
  have byte := (followsInput_loading (.inl hf)).1 h (tpos m) ((tpos m).isLt.trans_eq hi.symm)
  rw [tpos_tpos] at byte
  rw [byte, valued, Block.get_map, toCM_get]

/-! ## Commands -/

/-- A fault entered from `LOAD` keeps the bytes (R97). -/
theorem FollowsInput.raise {inp : Block Byte} {s : State} (h : FollowsInput inp s) (hf : s.fsm = .load)
    (c : Err) : FollowsInput inp (raise c s) :=
  (followsInput_loading (.inr rfl)).2 ((followsInput_loading (.inl hf)).1 h)

theorem toNat_icnt_add_one {s : State} (h : s.icnt.toNat < 16) : (s.icnt + 1).toNat = s.icnt.toNat + 1 := by
  bv_omega

/-- An `LDB` counted in writes the input's next byte, if it carries that (R77). -/
theorem FollowsInput.loadByte {inp : Block Byte} {s : State} (h : FollowsInput inp s) (hf : s.fsm = .load)
    {d : Byte} (hd : ∀ hi : s.icnt.toNat < 16, inp.get ⟨s.icnt.toNat, hi⟩ = d) :
    FollowsInput inp (loadByte d s) := by
  obtain ⟨hi, hb⟩ | ⟨-, hb⟩ := loadByte_cases d s <;> rw [hb]
  · refine (followsInput_loading (.inl ?_)).2 fun n hn => ?_
    · exact hf
    by_cases new : n = ⟨s.icnt.toNat, hi⟩
    · simp [new, hd hi]
    · have earlier : n.val < s.icnt.toNat := by
        have ne : n.val ≠ s.icnt.toNat := fun hv => new (Fin.ext hv)
        rw [toNat_icnt_add_one hi] at hn
        omega
      rw [Block.get_set, if_neg (tpos_injective.ne new)]
      exact (followsInput_loading (.inl hf)).1 h n earlier
  · exact h.raise hf .length

/-- `RUN` begins round 0 on `TOCM` of the input, with nothing emitted (R78). -/
theorem FollowsInput.startRun {inp : Block Byte} {s : State} (h : FollowsInput inp s) (hf : s.fsm = .load)
    (hl : legal s = true) : FollowsInput inp (startRun s) := by
  obtain ⟨-, -, -, -, hout⟩ := (legal_load_iff hf).1 hl
  obtain ⟨hi, hb⟩ | ⟨-, hb⟩ := startRun_cases s <;> rw [hb]
  · have st := h.st_of_loaded hf (congrArg BitVec.toNat hi)
    refine (followsInput_running (.inl rfl) ?_).2 ⟨hout, st⟩
    exact Nat.zero_le 10
  · exact h.raise hf .length

/-- A command word that decodes to `LDB d` is the word of `LDB d` (R38). -/
theorem eq_ldbWord_of_decode {w : CmdWord} {d : Byte} (h : decodeCommand w = .ok (.ldb d)) : w = ldbWord d :=
  CodeWord.cw.inj (eq_encode_of_decode (c := .cw w) h)

theorem ldbWord_injective : Function.Injective ldbWord := fun a b h => by
  rw [← ldb_word_data a, ← ldb_word_data b]
  exact congrArg (BitVec.extractLsb' 0 8) h

/-- If the next step counts a byte in, it is the input's next one. -/
def CarriesNextByte (inp : Block Byte) (s : State) : Prop :=
  ∀ (d : Byte) (rest : List HostInput) (hi : s.icnt.toNat < 16), s.fsm = .load →
    pending s = present (ldbWord d) :: rest → inp.get ⟨s.icnt.toNat, hi⟩ = d

/-- The byte about to be counted in is none of those that explain the state so far, so the input may be
chosen to have it. -/
theorem Explained.exists_carriesNextByte {s : State} (h : Explained s) :
    ∃ inp, FollowsInput inp s ∧ CarriesNextByte inp s := by
  obtain ⟨inp, hin⟩ := h
  by_cases carries : CarriesNextByte inp s
  · exact ⟨inp, hin, carries⟩
  · unfold CarriesNextByte at carries
    push Not at carries
    obtain ⟨d, rest, hi, hf, hp, -⟩ := carries
    refine ⟨inp.set ⟨s.icnt.toNat, hi⟩ d, (followsInput_loading (.inl hf)).2 fun n hn => ?_,
      fun d' rest' _ _ hp' => ?_⟩
    · rw [Block.get_set, if_neg (Fin.ne_of_lt hn)]
      exact (followsInput_loading (.inl hf)).1 hin n hn
    · rw [Block.get_set, if_pos rfl]
      have same := hp.symm.trans hp'
      simp only [present, List.cons.injEq, HostInput.drive.injEq, Option.some.injEq, true_and] at same
      exact ldbWord_injective same.1

/-! ## Micro-steps -/

/-- At the end of round `RND` its state is `ST` and is emitted, and the next round begins on it (R83). -/
theorem followsInput_endOfRound {inp : Block Byte} {s t : State} (hr : s.rnd.toNat ≤ 9)
    (hout : s.out = roundEmissions s.params inp s.rnd.toNat) (hf : t.fsm = .busy ∨ t.fsm = .done)
    (hrnd : t.rnd.toNat = s.rnd.toNat + 1) (hph : t.ph = 0) (hparams : t.params = s.params)
    (hst : t.st = valued (roundState s.params inp (s.rnd.toNat + 1)))
    (hemit : t.out = s.out ++ [⟨s.rnd, t.st⟩]) : FollowsInput inp t := by
  refine (followsInput_running hf (by omega)).2 ⟨?_, ?_⟩
  · rw [hemit, hout, hst, hparams, hrnd, roundEmissions_succ]
  · rw [hst, hparams, hrnd, hph]
    rfl

section Busy
variable {s t : State} {inp : Block Byte} (hl : legal s = true) (hf : s.fsm = .busy)
  (hq : headQuiet s = true) (h : step s = .next t)
  (hout : s.out = roundEmissions s.params inp s.rnd.toNat) (hr : s.rnd.toNat ≤ 9)
  (hst : s.st = valued (atPhase s.params (roundState s.params inp s.rnd.toNat) s.ph))
include hl hf hq h hout hr hst

theorem followsInput_sub (hp : s.ph = 0) : FollowsInput inp t := by
  rw [hp] at hst
  cases h.symm.trans (step_sub hl hf hq hst hp)
  refine (followsInput_running (.inl ?_) ?_).2 ⟨hout, rfl⟩
  · exact hf
  · exact Nat.le_succ_of_le hr

theorem followsInput_shr (hp : s.ph = 1) : FollowsInput inp t := by
  rw [hp] at hst
  obtain hlt | h9 := Nat.lt_or_eq_of_le hr
  · cases h.symm.trans (step_shr hl hf hq hst hp hlt)
    refine (followsInput_running (.inl ?_) ?_).2 ⟨hout, rfl⟩
    · exact hf
    · exact Nat.le_succ_of_le hr
  · cases h.symm.trans (step_shr_last hl hf hq hst hp h9)
    exact followsInput_endOfRound hr hout (.inr rfl) (by rw [h9]; rfl) rfl rfl (by rw [h9]; rfl) rfl

theorem followsInput_mix (hp : s.ph = 2) (hlt : s.rnd.toNat < 9) : FollowsInput inp t := by
  rw [hp] at hst
  cases h.symm.trans (step_mix hl hf hq hst hp hlt)
  refine followsInput_endOfRound hr hout (.inl hf) ?_ rfl rfl ?_ rfl
  · show (s.rnd + 1).toNat = s.rnd.toNat + 1
    bv_omega
  · rw [roundState_succ_of_lt _ _ hlt]
    rfl

end Busy

/-- A micro-step keeps to TRACE (R79 to R83). -/
theorem FollowsInput.microStep {inp : Block Byte} {s t : State} (hin : FollowsInput inp s)
    (hl : legal s = true) (hf : s.fsm = .busy) (hq : headQuiet s = true) (h : step s = .next t) :
    FollowsInput inp t := by
  obtain ⟨-, hr, hphase, -, -⟩ := (legal_busy_iff hf).1 hl
  obtain ⟨hout, hst⟩ := (followsInput_running (.inl hf) (Nat.le_succ_of_le hr)).1 hin
  obtain hp | hp | ⟨hp, hlt⟩ := hphase
  · exact followsInput_sub hl hf hq h hout hr hst hp
  · exact followsInput_shr hl hf hq h hout hr hst hp
  · exact followsInput_mix hl hf hq h hout hr hst hp hlt

/-! ## Every step -/

/-- The controller's own step keeps to the computation on `inp`, if a byte counted in is `inp`'s next. -/
theorem FollowsInput.step {inp : Block Byte} {s t : State} (hin : FollowsInput inp s)
    (h : step s = .next t) (hown : ownStep s = true) (hbyte : CarriesNextByte inp s) :
    FollowsInput inp t := by
  cases step_cases h with
  | reset _ _ hh => simp [ownStep, hh, quiet] at hown
  | ldb _ d rest _ hf hh hd ht =>
    rw [eq_ldbWord_of_decode hd] at hh
    exact ht ▸ FollowsInput.loadByte (s := newPeriod rest s) hin hf fun hi => hbyte d rest hi hf hh
  | run _ rest hl hf _ _ ht => exact ht ▸ FollowsInput.startRun (s := newPeriod rest s) hin hf hl
  | reserved _ rest _ hf _ _ ht => exact ht ▸ FollowsInput.raise (s := newPeriod rest s) hin hf .illcmd
  | sub _ hl hf hq | shr _ hl hf hq | mix _ hl hf hq => exact hin.microStep hl hf hq h

/-- Some input explains the state after any step: every one after a reset, and else one that explains the
state before and has the byte counted in. -/
theorem Explained.step {s t : State} (hs : Explained s) (h : Machine.step s = .next t) : Explained t := by
  by_cases hown : ownStep s = true
  · obtain ⟨inp, hin, hbyte⟩ := hs.exists_carriesNextByte
    exact ⟨inp, hin.step h hown hbyte⟩
  · cases step_cases h with
    | reset _ _ _ ht => exact ht ▸ explained_of_load_zero rfl rfl
    | ldb _ _ _ _ _ hh | run _ _ _ _ hh | reserved _ _ _ _ hh => simp [ownStep, hh, quiet] at hown
    | sub _ hl hf hq | shr _ hl hf hq | mix _ hl hf hq => exact absurd (headQuiet_of_busy hl hf ▸ hq) hown

/-- Settles O46: the same input explains the next state of an own step, and a reset starts afresh. -/
theorem stepFollowsTheTrace : Obligations.StepFollowsTheTrace := by
  refine fun s t h => ⟨fun hs => hs.step h, fun inp hin hown hword => hin.step h hown ?_⟩
  intro d rest hi hf hp
  have value : (ldbWord d).toNat = d.toNat := ldb_word_toNat d
  have isLdb : (ldbWord d).toNat < 0x100 := value ▸ d.isLt
  exact BitVec.eq_of_toNat_eq ((hword _ rest hi hf hp isLdb).trans value)

end Sys2Proof.Machine
end

section
/-! PROOF. spec/44_controller.md sections 1 and 2: the host commands, when they are accepted (R76) and what they do
(R77, R78). -/

namespace Sys2Proof.Machine

open Sys2Proof.Claims

/-! ## What a command does -/

theorem exec_ldb_load {s : State} (hl : legal s = true) (hf : s.fsm = .load) (d : Byte) :
    exec (.ldb d) s = .next (loadByte d s) := accept_load hl hf

theorem exec_run_load {s : State} (hl : legal s = true) (hf : s.fsm = .load) :
    exec .run s = .next (startRun s) := accept_load hl hf

theorem loadByte_of_lt {s : State} (h : s.icnt.toNat < 16) (d : Byte) :
    loadByte d s = { s with st := s.st.set (tpos ⟨s.icnt.toNat, h⟩) (some d), icnt := s.icnt + 1 } := dif_pos h

/-- The 17th byte (R77, R92). -/
theorem loadByte_of_full {s : State} (h : s.icnt.toNat = 16) (d : Byte) : loadByte d s = raise .length s :=
  dif_neg h.not_lt

theorem startRun_of_full {s : State} (h : s.icnt.toNat = 16) :
    startRun s = setUpc 0 0 { s with fsm := .busy } := if_pos (BitVec.eq_of_toNat_eq h)

/-- Fewer than sixteen bytes (R78, R92). -/
theorem startRun_of_lt {s : State} (h : s.icnt.toNat < 16) : startRun s = raise .length s :=
  if_neg fun h16 => h.ne (congrArg BitVec.toNat h16)

/-- Settles O22: the two branches of `RUN` in `LOAD`. -/
theorem runEffect : Obligations.RunEffect := fun _ hl hf =>
  ⟨fun h => by rw [exec_run_load hl hf, startRun_of_full h]; rfl,
    fun h => by rw [exec_run_load hl hf, startRun_of_lt h]; rfl⟩

/-- Settles O25: `cmd_ready` is `FSM = LOAD`, and so is the check of an accepted command. -/
theorem commandsOnlyInLoad : Obligations.CommandsOnlyInLoad := fun _ hl =>
  ⟨decide_eq_true_iff, fun hf => ⟨fun _ => accept_not_load hl hf, accept_not_load hl hf⟩,
    fun hf => ⟨fun d => ⟨_, exec_ldb_load hl hf d⟩, _, exec_run_load hl hf⟩⟩

/-! ## Sixteen bytes (R77) -/

/-- A byte counted in leaves the controller in its row of R22. -/
theorem legal_loadByte {s : State} (hl : legal s = true) (hf : s.fsm = .load) (h : s.icnt.toNat < 16)
    (d : Byte) : legal (loadByte d s) = true := by
  obtain ⟨-, hrnd, hph, herr, hout⟩ := (legal_load_iff hf).1 hl
  rw [loadByte_of_lt h]
  refine (legal_load_iff ?_).2 ⟨?_, hrnd, hph, herr, hout⟩
  · exact hf
  · exact (toNat_icnt_add_one h).trans_le h

/-- From a state that the input explains, its bytes still to come complete `TOCM` of it. -/
theorem loadEach_rest {inp : Block Byte} {k : Nat} {s : State} (hl : legal s = true) (hf : s.fsm = .load)
    (hk : s.icnt.toNat + k = 16) (hin : FollowsInput inp s) :
    loadEach (inp.toList.drop s.icnt.toNat) s = .next { s with st := valued (toCM inp), icnt := 16 } := by
  induction k generalizing s with
  | zero =>
    have full : s.icnt = 16 := BitVec.eq_of_toNat_eq hk
    rw [show s.icnt.toNat = 16 from hk, ← hin.st_of_loaded hf hk, ← full]
    rfl
  | succ k ih =>
    have hlt : s.icnt.toNat < 16 := by omega
    let d := inp.get ⟨s.icnt.toNat, hlt⟩
    have count : (loadByte d s).icnt.toNat = s.icnt.toNat + 1 := by
      rw [loadByte_of_lt hlt]
      exact toNat_icnt_add_one hlt
    have fsm : (loadByte d s).fsm = .load := by rwa [loadByte_of_lt hlt]
    calc loadEach (inp.toList.drop s.icnt.toNat) s
        = loadEach (inp.toList.drop (s.icnt.toNat + 1)) (loadByte d s) := by
          rw [Block.drop_toList inp ⟨s.icnt.toNat, hlt⟩, loadEach, exec_ldb_load hl hf]
      _ = .next { loadByte d s with st := valued (toCM inp), icnt := 16 } :=
          count ▸ ih (legal_loadByte hl hf hlt d) fsm (by omega) (hin.loadByte hf fun _ => rfl)
      _ = .next { s with st := valued (toCM inp), icnt := 16 } := by rw [loadByte_of_lt hlt]

/-- Settles O21: a byte goes to `TPOS(ICNT)`; sixteen of them are `TOCM` of the input, as each keeps to it. -/
theorem loadByteEffect : Obligations.LoadByteEffect := by
  refine ⟨fun inp s hl hf hi => ?all, fun d s hl hf => ⟨fun hlt => ?one, fun hfull => ?full⟩⟩
  case all =>
    have zero : s.icnt.toNat = 0 := by rw [hi]; rfl
    have none : FollowsInput inp s :=
      (followsInput_loading (.inl hf)).2 fun n hn => absurd hn (by omega)
    simpa only [zero, List.drop_zero] using loadEach_rest (k := 16) hl hf (by omega) none
  case one =>
    refine ⟨_, _, by rw [exec_ldb_load hl hf, loadByte_of_lt hlt], toNat_icnt_add_one hlt, fun m => ?_⟩
    simp only [Block.get_set, Fin.ext_iff, tpos]
  case full =>
    rw [exec_ldb_load hl hf, loadByte_of_full hfull]
    rfl

/-! ## What a command leaves -/

/-- Everything a command that goes on can do. -/
theorem command_cases {i : Instr} {s t : State} (hi : (∃ d, i = .ldb d) ∨ i = .run) (h : exec i s = .next t) :
    (∃ d, ∃ hlt : s.icnt.toNat < 16, i = .ldb d ∧ s.fsm = .load ∧
      t = { s with st := s.st.set (tpos ⟨s.icnt.toNat, hlt⟩) (some d), icnt := s.icnt + 1 }) ∨
    (i = .run ∧ s.rnd = 0 ∧ s.ph = 0 ∧ t = setUpc 0 0 { s with fsm := .busy }) ∨
    t = raise .length s := by
  obtain ⟨d, rfl⟩ | rfl := hi
  · obtain ⟨-, hf, rfl⟩ := accept_eq_next_iff.1 h
    obtain ⟨hlt, hb⟩ | ⟨-, hb⟩ := loadByte_cases d s
    · exact .inl ⟨d, hlt, rfl, hf, hb⟩
    · exact .inr (.inr hb)
  · obtain ⟨hl, hf, rfl⟩ := accept_eq_next_iff.1 h
    obtain ⟨-, hrnd, hph, -⟩ := (legal_load_iff hf).1 hl
    obtain ⟨-, hb⟩ | ⟨-, hb⟩ := startRun_cases s
    · exact .inr (.inl ⟨rfl, hrnd, hph, hb⟩)
    · exact .inr (.inr hb)

/-- What every command leaves, whether or not it raises a fault: the emissions, and what is not the block's. -/
structure CommandKeeps (s t : State) : Prop where
  silent : t.strobe = s.strobe ∧ t.out = s.out
  host : t.host = s.host
  gfOut : t.gfOut = s.gfOut

theorem raise_keeps (c : Err) (s : State) : CommandKeeps s (raise c s) := ⟨⟨rfl, rfl⟩, rfl, rfl⟩

theorem loadByte_keeps (d : Byte) (s : State) : CommandKeeps s (loadByte d s) := by
  obtain ⟨_, h⟩ | ⟨_, h⟩ := loadByte_cases d s <;> rw [h]
  · exact ⟨⟨rfl, rfl⟩, rfl, rfl⟩
  · exact raise_keeps .length s

theorem startRun_keeps (s : State) : CommandKeeps s (startRun s) := by
  obtain ⟨_, h⟩ | ⟨_, h⟩ := startRun_cases s <;> rw [h]
  · exact ⟨⟨rfl, rfl⟩, rfl, rfl⟩
  · exact raise_keeps .length s

/-- Settles O26: a byte counted in, the run started or `LENGTH` raised, each field by field. -/
theorem commandFrame : Obligations.CommandFrame := by
  intro i s t hi h
  obtain ⟨d, hlt, rfl, hf, rfl⟩ | ⟨rfl, hrnd, hph, rfl⟩ | rfl := command_cases hi h
  · have others : ∀ n : Fin 16, n.val ≠ s.icnt.toNat → tpos n ≠ tpos ⟨s.icnt.toNat, hlt⟩ :=
      fun n hn => tpos_injective.ne fun he => hn (congrArg Fin.val he)
    simp +contextual [hf, others]
  · simp [hrnd, hph]
  · simp

end Sys2Proof.Machine
end

section
/-! PROOF. spec/44_controller.md section 3: what the micro-operations do (R80 to R83), on bytes with values and on
bytes without, and what they leave. -/

namespace Sys2Proof.Machine

/-! ## The micro-op that `PH` names (R79) -/

section Selected
variable {s : State} (hl : legal s = true) (hf : s.fsm = .busy)
include hl hf

theorem exec_sub_selected (hp : s.ph = 0) : exec .sub s = .next (doSub s) := microStep_selected hl hf hp

theorem exec_shr_selected (hp : s.ph = 1) : exec .shr s = .next (doShr s) := microStep_selected hl hf hp

theorem exec_mix_selected (hp : s.ph = 2) : exec .mix s = .next (doMix s) := microStep_selected hl hf hp

/-- Phase 2 occurs before round 9 only (R22). -/
theorem rnd_lt_of_phase_two (hp : s.ph = 2) : s.rnd.toNat < 9 := by
  obtain ⟨-, -, h | h | ⟨-, h⟩, -, -⟩ := (legal_busy_iff hf).1 hl
  · cases hp.symm.trans h
  · cases hp.symm.trans h
  · exact h

end Selected

/-! ## What each does, by round -/

/-- Before round 9 ShiftRows is no end of a round (R81). -/
theorem doShr_of_lt {s : State} (hr : s.rnd.toNat < 9) :
    doShr s = setUpc s.rnd 2 { s with st := shiftLanes s.st } := by
  obtain ⟨-, h⟩ | ⟨hge, -⟩ := doShr_cases s
  · exact h
  · exact absurd hr hge.not_gt

theorem doShr_of_last {s : State} (hr : s.rnd.toNat = 9) :
    doShr s = { setUpc 10 0 (emit { s with st := shiftLanes s.st }) with fsm := .done } := by
  obtain ⟨hlt, -⟩ | ⟨-, h⟩ := doShr_cases s
  · exact absurd hr hlt.ne
  · exact h

/-- MixColumns ends a round that is not the last (R82, R83). -/
theorem doMix_of_lt {s : State} (hr : s.rnd.toNat < 9) :
    doMix s = setUpc (s.rnd + 1) 0 (emit { s with st := mixLanes s.params s.st }) := by
  obtain ⟨-, h⟩ | ⟨hge, -⟩ := roundEnd_cases { s with st := mixLanes s.params s.st }
  · exact h
  · exact absurd hr hge.not_gt

/-- Settles O27: SubBytes on sixteen values, each read from the ROM at its exchanged nibbles. -/
theorem subBytesEffect : Obligations.SubBytesEffect := by
  refine fun s W hl hf hp hst => ⟨subBytes s.params W, ?_, fun m => ?_⟩
  · rw [exec_sub_selected hl hf hp, doSub, hst, valued, subLanes_some]
    rfl
  · rw [subBytes_get, subByte_eq_get]

/-- Settles O28: ShiftRows on sixteen values, within a round or at the end of the last. -/
theorem shiftRowsEffect : Obligations.ShiftRowsEffect := by
  refine fun s W hl hf hp hst => ⟨shiftRows W, shiftRows_get_cell W, fun hr => ?_, fun hr => ?_⟩
  · rw [exec_shr_selected hl hf hp, doShr_of_lt hr, hst, valued, shiftLanes_some]
    rfl
  · have rnd : s.rnd = 9 := BitVec.eq_of_toNat_eq hr
    rw [exec_shr_selected hl hf hp, doShr_of_last hr, hst, valued, shiftLanes_some, ← rnd]
    rfl

/-- Settles O29: MixColumns on sixteen values, and the end of a round before the last. -/
theorem mixColumnsEffect : Obligations.MixColumnsEffect := by
  intro s W hl hf hp hst
  have hr := rnd_lt_of_phase_two hl hf hp
  refine ⟨mixColumns s.params W, s.rnd + 1, fun i j => ?_, by bv_omega, ?_⟩
  · rw [mixColumns_get_cell, dot_eq_xor]
    simp only [get_mixRow, get_col]
  · rw [exec_mix_selected hl hf hp, doMix_of_lt hr, hst, valued, mixLanes_some]
    rfl

/-! ## Bytes without a value (log entry 1) -/

theorem doShr_st (s : State) : (doShr s).st = shiftLanes s.st := by
  obtain ⟨-, h⟩ | ⟨-, h⟩ := doShr_cases s <;> rw [h] <;> rfl

theorem doMix_st (s : State) : (doMix s).st = mixLanes s.params s.st := by
  obtain ⟨-, h⟩ | ⟨-, h⟩ := roundEnd_cases { s with st := mixLanes s.params s.st } <;> rw [doMix, h] <;> rfl

theorem subLanes_get_eq_none_iff (p : Params) (S : Block (Option Byte)) (m : Fin 16) :
    (subLanes p S).get m = none ↔ S.get m = none := by
  rw [subLanes, Block.get_map, Option.map_eq_none_iff]

/-- Four optional values are not all there exactly when one is missing. -/
theorem all?_eq_none_iff {α : Type} (q : Quad (Option α)) : q.all? = none ↔ ∃ k : Fin 4, q.get k = none := by
  constructor
  · intro h
    by_contra! present
    obtain ⟨a, ha⟩ := Option.ne_none_iff_exists'.1 (present 0)
    obtain ⟨b, hb⟩ := Option.ne_none_iff_exists'.1 (present 1)
    obtain ⟨c, hc⟩ := Option.ne_none_iff_exists'.1 (present 2)
    obtain ⟨d, hd⟩ := Option.ne_none_iff_exists'.1 (present 3)
    obtain rfl : q = ⟨some a, some b, some c, some d⟩ := by rw [← ha, ← hb, ← hc, ← hd]; rfl
    cases h
  · rintro ⟨k, hk⟩
    unfold Quad.all?
    split
    next h0 h1 h2 h3 => fin_cases k <;> simp_all [Quad.get]
    next => rfl

theorem mixLanes_get_eq_none_iff (p : Params) (S : Block (Option Byte)) (i j : Fin 4) :
    (mixLanes p S).get (cell i j) = none ↔ ∃ k : Fin 4, S.get (cell k j) = none := by
  rw [mixLanes, Block.get_ofCells, Option.map_eq_none_iff, all?_eq_none_iff]
  simp only [get_col]

/-- Settles O30: each micro-op of its phase completes, and its lanes keep, move or combine what is missing. -/
theorem microOpsCompleteOnAnyBytes : Obligations.MicroOpsCompleteOnAnyBytes := by
  refine fun s hl hf => ⟨fun hp => ⟨_, exec_sub_selected hl hf hp, subLanes_get_eq_none_iff s.params s.st⟩,
    fun hp => ⟨_, exec_shr_selected hl hf hp, ?shr⟩, fun hp => ⟨_, exec_mix_selected hl hf hp, ?mix⟩⟩
  case shr =>
    rw [doShr_st]
    exact shiftRows_get_cell s.st
  case mix =>
    rw [doMix_st]
    exact mixLanes_get_eq_none_iff s.params s.st

/-! ## What a micro-op leaves -/

/-- What every micro-op leaves: all but `ST`, `upc`, the mode and the strobe, and in `OUT` all but one emission
at its end. -/
structure MicroOpKeeps (s t : State) : Prop where
  icnt : t.icnt = s.icnt
  err : t.err = s.err
  host : t.host = s.host
  gfOut : t.gfOut = s.gfOut
  params : t.params = s.params
  out : ∃ es, t.out = s.out ++ es ∧ es.length ≤ 1

theorem doSub_keeps (s : State) : MicroOpKeeps s (doSub s) :=
  ⟨rfl, rfl, rfl, rfl, rfl, [], (List.append_nil _).symm, Nat.zero_le 1⟩

theorem roundEnd_keeps (s : State) : MicroOpKeeps s (roundEnd s) := by
  obtain ⟨-, h⟩ | ⟨-, h⟩ := roundEnd_cases s <;> rw [h]
  · exact ⟨rfl, rfl, rfl, rfl, rfl, [_], rfl, Nat.le_refl 1⟩
  · exact ⟨rfl, rfl, rfl, rfl, rfl, [_], rfl, Nat.le_refl 1⟩

theorem doShr_keeps (s : State) : MicroOpKeeps s (doShr s) := by
  obtain ⟨-, h⟩ | ⟨-, h⟩ := doShr_cases s <;> rw [h]
  · exact ⟨rfl, rfl, rfl, rfl, rfl, [], (List.append_nil _).symm, Nat.zero_le 1⟩
  · exact ⟨rfl, rfl, rfl, rfl, rfl, [_], rfl, Nat.le_refl 1⟩

theorem doMix_keeps (s : State) : MicroOpKeeps s (doMix s) :=
  have k := roundEnd_keeps { s with st := mixLanes s.params s.st }
  ⟨k.icnt, k.err, k.host, k.gfOut, k.params, k.out⟩

theorem microOp_keeps {i : Instr} {s t : State} (hi : i = .sub ∨ i = .shr ∨ i = .mix)
    (h : exec i s = .next t) : MicroOpKeeps s t := by
  obtain rfl | rfl | rfl := hi
  · obtain ⟨-, -, -, rfl⟩ := microStep_eq_next_iff.1 h
    exact doSub_keeps s
  · obtain ⟨-, -, -, rfl⟩ := microStep_eq_next_iff.1 h
    exact doShr_keeps s
  · obtain ⟨-, -, -, rfl⟩ := microStep_eq_next_iff.1 h
    exact doMix_keeps s

/-- Settles O31: what every micro-op leaves, and what SUB, SHR within a round and MIX leave besides. -/
theorem microOpFrame : Obligations.MicroOpFrame := by
  intro i s t hi h
  have k := microOp_keeps hi h
  refine ⟨k.icnt, k.err, k.host, k.gfOut, fun _ => by rw [k.params], fun _ => by rw [k.params], k.out,
    ?inRound, ?mix⟩
  case inRound =>
    rintro (rfl | ⟨rfl, hr⟩)
    · obtain ⟨-, -, -, rfl⟩ := microStep_eq_next_iff.1 h
      exact ⟨rfl, rfl, rfl, rfl⟩
    · obtain ⟨-, -, -, rfl⟩ := microStep_eq_next_iff.1 h
      rw [doShr_of_lt hr]
      exact ⟨rfl, rfl, rfl, rfl⟩
  case mix =>
    rintro rfl
    obtain ⟨hl, hf, hp, rfl⟩ := microStep_eq_next_iff.1 h
    rw [doMix_of_lt (rnd_lt_of_phase_two hl hf hp)]
    rfl

end Sys2Proof.Machine
end

section
/-! PROOF. The steps of spec/44_controller.md: which code a step runs (R76, R79), where there is none (R22, R84,
R97), what a step emits (R83, R87), and what the host can and cannot do (R88, R105). -/

namespace Sys2Proof.Machine

/-! ## The step from a state, by mode -/

/-- A host that never resets leaves the next step to the controller. -/
theorem ownStep_of_quiet {s : State} (h : ∀ a ∈ s.host, quiet a = true) : ownStep s = true := by
  unfold ownStep
  split
  next => rfl
  next a rest hp => exact h a ((List.dropWhile_suffix _).subset (hp ▸ List.mem_cons_self))

theorem microStep_not_selected {p : BitVec 2} {body : State → State} {s : State} (hl : legal s = true)
    (h : ¬(s.fsm = .busy ∧ s.ph = p)) : microStep p body s = .refused .microOpNotSelected := by
  rw [microStep, if_neg (by simp [hl]), if_neg h]

/-- Settles O32: each instruction checks the table of R22 first, and a micro-op the mode and the phase next. -/
theorem nothingOutsideTheSequence : Obligations.NothingOutsideTheSequence := fun _ =>
  ⟨fun hl h => microStep_not_selected hl h, fun hl h => microStep_not_selected hl h,
    fun hl h => microStep_not_selected hl h, fun hl =>
    ⟨fun _ => accept_not_legal hl, accept_not_legal hl,
      fun _ => ⟨observeProduct_not_legal hl, observeProduct_not_legal hl, observeProduct_not_legal hl⟩,
      microStep_not_legal hl, microStep_not_legal hl, microStep_not_legal hl,
      fun hq => step_not_legal (ownStep_of_quiet hq) hl⟩⟩

/-- With no word and no reset at any edge nothing is due in `LOAD`. -/
theorem pending_nil_of_idle {s : State} (hl : legal s = true) (hf : s.fsm = .load)
    (hq : ∀ h ∈ s.host, quiet h = true) (hn : ∀ h ∈ s.host, h.cmd = none) : pending s = [] := by
  refine pending_nil fun a ha => (nothingDue_load hl hf).2 ?_
  obtain ⟨r, c⟩ := a
  have rst : r = false := by simpa [quiet] using hq _ ha
  have cmd : c = none := hn _ ha
  rw [rst, cmd]

theorem fetchRunning_load_nil {s : State} (hf : s.fsm = .load) :
    fetchRunning [] s = .stuck .awaitingCommand := by
  simp only [fetchRunning, hf]

theorem fetchRunning_done {s : State} (hf : s.fsm = .done) (edges : List HostInput) :
    fetchRunning edges s = stuckAfterRun .runComplete s := by
  simp only [fetchRunning, hf]

theorem fetchRunning_fault {s : State} (hf : s.fsm = .fault) (edges : List HostInput) :
    fetchRunning edges s = stuckAfterRun .runFaulted s := by
  simp only [fetchRunning, hf]

/-- With no reset driven, a word in `DONE` or `FAULT` is what is stuck, and without one the reason is `f`. -/
theorem stuckAfterRun_cases (f : Fault) (s : State) :
    ((∀ h ∈ s.host, h.cmd = none) → stuckAfterRun f s = .stuck f) ∧
      ((∃ h ∈ s.host, h.cmd ≠ none) → stuckAfterRun f s = .stuck .commandNotAccepted) := by
  constructor
  · intro h
    rw [stuckAfterRun, if_neg]
    simpa using h
  · intro h
    rw [stuckAfterRun, if_pos]
    simpa [Option.isSome_iff_ne_none] using h

/-- Settles O34: with no reset driven the step is `fetchRunning`'s, which in these modes is a stop named by what
is at the port. -/
theorem noStepWithoutCommandOrRun : Obligations.NoStepWithoutCommandOrRun := by
  intro s hl hq
  have hfe := fetch_own (ownStep_of_quiet hq) hl
  refine ⟨fun hf hn => ?load, fun hf hn => ?done, fun hf hn => ?fault, fun hf hw => ?word⟩
  · rw [step, hfe, pending_nil_of_idle hl hf hq hn, fetchRunning_load_nil hf]
  · rw [step, hfe, fetchRunning_done hf, (stuckAfterRun_cases _ s).1 hn]
  · rw [step, hfe, fetchRunning_fault hf, (stuckAfterRun_cases _ s).1 hn]
  · obtain hf | hf := hf
    · rw [step, hfe, fetchRunning_done hf, (stuckAfterRun_cases _ s).2 hw]
    · rw [step, hfe, fetchRunning_fault hf, (stuckAfterRun_cases _ s).2 hw]

/-- Settles O33: the code a step runs is the word accepted or `PH`, and what it decodes to is run. -/
theorem stepRunsDecoded : Obligations.StepRunsDecoded := by
  refine fun s i => ⟨fun before w rest hl hf hidle hh hd _ => ⟨?_, ?_⟩, fun hl hf hq hd _ => ⟨?_, ?_⟩,
    fun _ _ hd _ => runCode_of_ok hd⟩
  · have hp := pending_append hh (fun a ha => (nothingDue_load hl hf).2 (hidle a ha)) (nothingDue_word hl hf)
    exact step_of_issue (fetch_command hl hf hp) hd
  · obtain ⟨d, h⟩ | h | h := decodeCommand_cases w
    · exact .inl ⟨d, Except.ok.inj (hd.symm.trans h)⟩
    · exact .inr (Except.ok.inj (hd.symm.trans h))
    · cases hd.symm.trans h
  · exact step_of_issue (fetch_busy hl hf hq) hd
  · obtain ⟨-, h⟩ | ⟨-, h⟩ | ⟨-, h⟩ := decodeMicroOp_ok hd
    · exact .inl h
    · exact .inr (.inl h)
    · exact .inr (.inr h)

/-- Settles O37: `DONE` and `FAULT` are no modes of a command or a micro-step, so what is left is the reset. -/
theorem onlyResetLeavesDoneAndFault : Obligations.OnlyResetLeavesDoneAndFault := by
  intro s t hf h
  cases step_cases h with
  | reset c rest hh ht =>
    obtain ⟨before, hsplit, hidle, -⟩ := pending_split s
    exact ⟨before, c, rest, hh ▸ hsplit, fun a ha => nothingDue_quiet (hidle a ha), ht⟩
  | ldb _ _ _ _ hm | run _ _ _ hm | reserved _ _ _ hm => simp [hm] at hf
  | sub _ _ hm | shr _ _ hm | mix _ _ hm => simp [hm] at hf

/-! ## What a step emits (R83, R87) -/

/-- The phase that ends a round: MixColumns before round 9, ShiftRows in it (R81, R82). -/
def EndsRound (s : State) : Prop :=
  s.fsm = .busy ∧ ((s.ph = 2 ∧ s.rnd.toNat < 9) ∨ (s.ph = 1 ∧ s.rnd.toNat = 9))

/-- An own step emits at the end of a round, and is silent otherwise. -/
theorem emits_or_silent {s t : State} (h : step s = .next t) (hown : ownStep s = true) :
    (EndsRound s ∧ t.strobe = some s.rnd ∧ t.out = s.out ++ [⟨s.rnd, t.st⟩]) ∨
    (¬EndsRound s ∧ t.strobe = none ∧ t.out = s.out) := by
  have notBusy : s.fsm = .load → ¬EndsRound s := fun hf he => by cases hf.symm.trans he.1
  cases step_cases h with
  | reset _ _ hh => simp [ownStep, hh, quiet] at hown
  | ldb _ d rest _ hf _ _ ht => exact .inr ⟨notBusy hf, ht ▸ (loadByte_keeps d (newPeriod rest s)).silent⟩
  | run _ rest _ hf _ _ ht => exact .inr ⟨notBusy hf, ht ▸ (startRun_keeps (newPeriod rest s)).silent⟩
  | reserved _ rest _ hf _ _ ht =>
    exact .inr ⟨notBusy hf, ht ▸ (raise_keeps .illcmd (newPeriod rest s)).silent⟩
  | sub rest _ _ _ _ hp ht =>
    refine .inr ⟨?_, by rw [ht]; exact ⟨rfl, rfl⟩⟩
    rintro ⟨-, ⟨h2, -⟩ | ⟨h1, -⟩⟩
    · cases hp.symm.trans h2
    · cases hp.symm.trans h1
  | shr rest hl hf _ _ hp ht =>
    obtain ⟨hlt, hb⟩ | ⟨hge, hb⟩ := doShr_cases (newPeriod rest s)
    · refine .inr ⟨?_, by rw [ht, hb]; exact ⟨rfl, rfl⟩⟩
      rintro ⟨-, ⟨h2, -⟩ | ⟨-, h9⟩⟩
      · cases hp.symm.trans h2
      · exact absurd h9 hlt.ne
    · obtain ⟨-, hr, -⟩ := (legal_busy_iff hf).1 hl
      exact .inl ⟨⟨hf, .inr ⟨hp, Nat.le_antisymm hr hge⟩⟩, by rw [ht, hb]; exact ⟨rfl, rfl⟩⟩
  | mix rest hl hf _ _ hp ht =>
    have hr := rnd_lt_of_phase_two hl hf hp
    exact .inl ⟨⟨hf, .inl ⟨hp, hr⟩⟩, by rw [ht, doMix_of_lt (by exact hr)]; exact ⟨rfl, rfl⟩⟩

/-- Settles O40: both cases of an own step, the strobe and `OUT` together. -/
theorem strobeShowsTheEmission : Obligations.StrobeShowsTheEmission := by
  intro s t h hown
  show _ ∧ _ ∧ _ ∧ (_ ↔ EndsRound s)
  obtain ⟨ends, hstrobe, hout⟩ | ⟨ends, hstrobe, hout⟩ := emits_or_silent h hown
  · have valid : t.outValid = true := by rw [State.outValid, hstrobe]; rfl
    refine ⟨iff_of_true valid (by simp [hout]), fun _ => ⟨hstrobe, hout, fun _ => rfl⟩, fun hv => ?_,
      iff_of_true valid ends⟩
    cases valid.symm.trans hv
  · have invalid : ¬t.outValid = true := by simp [State.outValid, hstrobe]
    exact ⟨iff_of_false invalid (by simp [hout]), fun hv => absurd hv invalid, fun _ => ⟨hstrobe, hout⟩,
      iff_of_false invalid ends⟩

/-! ## What the host drives in a run (R79, R88) -/

theorem roundEnd_setHost (s : State) (h : List HostInput) :
    roundEnd { s with host := h } = { roundEnd s with host := h } := by
  unfold roundEnd
  dsimp only
  split <;> rfl

theorem doShr_setHost (s : State) (h : List HostInput) :
    doShr { s with host := h } = { doShr s with host := h } := by
  unfold doShr
  dsimp only
  split
  · rfl
  · exact roundEnd_setHost { s with st := shiftLanes s.st } h

/-- A micro-op that does not read the host list makes the same step whatever the list is. -/
theorem step_microOp_setHost {s : State} {i : Instr} {p : BitVec 2} {body : State → State}
    (hd : decode (.uop p) = .ok i) (hi : exec i = microStep p body)
    (hbody : ∀ u h, body { u with host := h } = { body u with host := h })
    (hl : legal s = true) (hf : s.fsm = .busy) (hq : headQuiet s = true) (hp : s.ph = p) :
    ∃ t, step { s with host := [] } = .next t ∧ step s = .next { t with host := s.host.tail } := by
  refine ⟨body (newPeriod [] s), step_microOp (s := { s with host := [] }) hl hf rfl hp hd hi, ?_⟩
  rw [step_microOp hl hf hq hp hd hi, ← hbody]
  rfl

/-- Settles O41: none of the three micro-ops reads the host list. -/
theorem hostCannotDisturbARun : Obligations.HostCannotDisturbARun := by
  intro s hl hf hq
  obtain ⟨-, -, hp | hp | ⟨hp, -⟩, -, -⟩ := (legal_busy_iff hf).1 hl
  · exact step_microOp_setHost (body := doSub) rfl rfl (fun _ _ => rfl) hl hf hq hp
  · exact step_microOp_setHost rfl rfl doShr_setHost hl hf hq hp
  · exact step_microOp_setHost rfl rfl
      (fun u h => roundEnd_setHost { u with st := mixLanes u.params u.st } h) hl hf hq hp

/-! ## A reset the host drives is reached (R105) -/

theorem step_reset {s : State} {c : Option CmdWord} {rest : List HostInput}
    (hh : pending s = .drive true c :: rest) : step s = .next (applyReset { s with host := rest }) := by
  rw [step, fetch_reset hh]

/-- A word accepted in `LOAD` has its step, reserved words among them (R76, R94). -/
theorem exists_step_of_word {s : State} {w : CmdWord} {rest : List HostInput} (hl : legal s = true)
    (hf : s.fsm = .load) (hh : pending s = .drive false (some w) :: rest) : ∃ t, step s = .next t := by
  have hfe := fetch_command hl hf hh
  obtain ⟨d, hd⟩ | hd | hd := decodeCommand_cases w
  · exact ⟨_, (step_of_issue hfe hd).trans (accept_load hl hf)⟩
  · exact ⟨_, (step_of_issue hfe hd).trans (accept_load hl hf)⟩
  · exact ⟨_, (step_of_no_instr hfe hd).trans (accept_load hl hf)⟩

/-- At an edge that is no reset and has something due, the controller is in `LOAD` or `BUSY` and has a step. -/
theorem exists_step_of_due {s : State} {a : HostInput} {rest : List HostInput} (hp : pending s = a :: rest)
    (hq : quiet a = true) :
    legal s = true ∧ (s.fsm = .load ∨ s.fsm = .busy) ∧ ∃ t, step s = .next t := by
  obtain ⟨-, -, -, due⟩ := pending_split s
  have hd := due a rest hp
  have notOver : ¬(legal s = false ∨ s.fsm = .done ∨ s.fsm = .fault) := fun h => by
    cases hd.symm.trans ((nothingDue_over h).trans hq)
  have hl : legal s = true := Bool.of_not_eq_false fun h => notOver (.inl h)
  refine ⟨hl, ?_⟩
  cases hf : s.fsm with
  | load =>
    refine ⟨.inl rfl, ?_⟩
    obtain ⟨r, c⟩ := a
    obtain rfl : r = false := by simpa [quiet] using hq
    cases c with
    | none => cases hd.symm.trans ((nothingDue_load hl hf).2 rfl)
    | some w => exact exists_step_of_word hl hf hp
  | busy =>
    have hhead : headQuiet s = true := by rw [headQuiet_of_busy hl hf, ownStep, hp]; exact hq
    obtain ⟨t, -, ht⟩ := hostCannotDisturbARun s hl hf hhead
    exact ⟨.inr rfl, _, ht⟩
  | done => exact absurd (.inr (.inl hf)) notOver
  | fault => exact absurd (.inr (.inr hf)) notOver

/-- A step takes the edges up to its own off the host list, and never writes the probe (log entries 2, 8). -/
theorem step_host_gfOut {s t : State} (h : step s = .next t) :
    t.host = (pending s).tail ∧ t.gfOut = s.gfOut := by
  cases step_cases h with
  | reset _ _ hh ht => rw [ht, hh]; exact ⟨rfl, rfl⟩
  | ldb _ d rest _ _ hh _ ht =>
    have k := loadByte_keeps d (newPeriod rest s)
    rw [ht, hh]
    exact ⟨k.host, k.gfOut⟩
  | run _ rest _ _ hh _ ht =>
    have k := startRun_keeps (newPeriod rest s)
    rw [ht, hh]
    exact ⟨k.host, k.gfOut⟩
  | reserved _ rest _ _ hh _ ht => rw [ht, hh]; exact ⟨rfl, rfl⟩
  | sub rest hl hf _ hh _ ht =>
    rw [ht, pending_busy hl hf, ← hh]
    exact ⟨rfl, rfl⟩
  | shr rest hl hf _ hh _ ht =>
    have k := doShr_keeps (newPeriod rest s)
    rw [ht, pending_busy hl hf, ← hh]
    exact ⟨k.host, k.gfOut⟩
  | mix rest hl hf _ hh _ ht =>
    have k := doMix_keeps (newPeriod rest s)
    rw [ht, pending_busy hl hf, ← hh]
    exact ⟨k.host, k.gfOut⟩

/-- A reset is never left out: what is pending ends with it, and begins with a part of the edges before it. -/
theorem pending_append_reset {s : State} {before rest : List HostInput} {c : Option CmdWord}
    (hh : s.host = before ++ .drive true c :: rest) :
    pending s = before.dropWhile (nothingDue s) ++ .drive true c :: rest := by
  rw [pending, hh, List.dropWhile_append, List.dropWhile_cons_of_neg (by simp [nothingDue_reset])]
  split
  next h => rw [List.isEmpty_iff.1 h, List.nil_append]
  next => rfl

/-- Settles O50: by induction on the edges before the reset, each step taking at least one of them. -/
theorem resetIsAlwaysReached : Obligations.ResetIsAlwaysReached := by
  intro s before rest c hq hh
  induction hn : before.length using Nat.strong_induction_on generalizing s before with
  | _ n ih =>
    subst hn
    have hp := pending_append_reset hh
    have suffix := List.dropWhile_suffix (nothingDue s) (l := before)
    cases hd : before.dropWhile (nothingDue s) with
    | nil =>
      rw [hd] at hp
      exact ⟨0, Nat.zero_le _, fun _ => rfl, steps_succ (step_reset hp) 0⟩
    | cons a after =>
      rw [hd] at hp suffix
      obtain ⟨hl, hf, t, ht⟩ := exists_step_of_due hp (hq a (suffix.subset List.mem_cons_self))
      obtain ⟨hhost, hgf⟩ := step_host_gfOut ht
      rw [hp] at hhost
      have shorter : after.length < before.length := suffix.length_le
      obtain ⟨k, hk, -, hrun⟩ := ih _ shorter t after
        (fun b hb => hq b (suffix.subset (List.mem_cons_of_mem a hb))) hhost rfl
      refine ⟨k + 1, hk.trans_lt shorter, fun ended => ?_, ?_⟩
      · obtain hf | hf := hf <;> simp [hl, hf] at ended
      · rw [steps_succ ht, hrun, step_params ht, hgf]

end Sys2Proof.Machine
end

section
/-! PROOF. spec/44_controller.md section 4: every run ends, after 29 micro-steps (R86). -/

namespace Sys2Proof.Machine

/-- A `BUSY` row of R22 is one of the 29 places in a run: three phases a round, two in round 9 (R86). -/
theorem microStepsDone_lt {s : State} (hl : legal s = true) (hf : s.fsm = .busy) : microStepsDone s < 29 := by
  obtain ⟨-, hr, hphase, -, -⟩ := (legal_busy_iff hf).1 hl
  obtain hp | hp | ⟨hp, hlt⟩ := hphase <;> rw [microStepsDone, hp]
  · show 3 * s.rnd.toNat + 0 < 29
    omega
  · show 3 * s.rnd.toNat + 1 < 29
    omega
  · show 3 * s.rnd.toNat + 2 < 29
    omega

/-- `t` is one micro-step further in the run than `s`, or the end of the run (R86). -/
structure OneFurther (s t : State) : Prop where
  table : legal t = true
  count : (t.fsm = .busy ∧ microStepsDone t = microStepsDone s + 1) ∨
    (t.fsm = .done ∧ microStepsDone s + 1 = 29)

section Busy
variable {s : State} (hl : legal s = true) (hf : s.fsm = .busy) (rest : List HostInput)
include hl hf

theorem oneFurther_doSub (hp : s.ph = 0) : OneFurther s (doSub (newPeriod rest s)) where
  table := legal_setPhase hl hf (.inl rfl) _ rest
  count := .inl ⟨hf, by rw [microStepsDone, microStepsDone, hp]; rfl⟩

/-- ShiftRows goes to phase 2, or ends the run in round 9 (R81, R83). -/
theorem oneFurther_doShr (hp : s.ph = 1) : OneFurther s (doShr (newPeriod rest s)) := by
  obtain ⟨hicnt, hr, -, herr, hlen⟩ := (legal_busy_iff hf).1 hl
  obtain hlt | h9 := Nat.lt_or_eq_of_le hr
  · rw [doShr_of_lt (s := newPeriod rest s) hlt]
    refine ⟨legal_setPhase hl hf (.inr ⟨rfl, hlt⟩) _ rest, .inl ⟨hf, ?_⟩⟩
    rw [microStepsDone, microStepsDone, hp]
    rfl
  · rw [doShr_of_last (s := newPeriod rest s) h9]
    refine ⟨(legal_done_iff rfl).2 ⟨hicnt, rfl, rfl, herr, ?_⟩, .inr ⟨rfl, ?_⟩⟩
    · simp [hlen, h9]
    · rw [microStepsDone, hp, h9]
      rfl

/-- MixColumns goes to the next round, so it is the third micro-step of its own (R82, R83). -/
theorem oneFurther_doMix (hp : s.ph = 2) : OneFurther s (doMix (newPeriod rest s)) := by
  obtain ⟨hicnt, -, -, herr, hlen⟩ := (legal_busy_iff hf).1 hl
  have hlt := rnd_lt_of_phase_two hl hf hp
  have next : (s.rnd + 1).toNat = s.rnd.toNat + 1 := by bv_omega
  rw [doMix_of_lt (s := newPeriod rest s) hlt]
  refine ⟨(legal_busy_iff (by exact hf)).2 ⟨hicnt, ?_, .inl rfl, herr, ?_⟩, .inl ⟨hf, ?_⟩⟩
  · exact next.trans_le hlt
  · exact (List.length_append.trans (congrArg (· + 1) hlen)).trans next.symm
  · rw [microStepsDone, microStepsDone, hp, setUpc_rnd, newPeriod_rnd, next]
    rfl

theorem exists_oneFurther (hq : headQuiet s = true) : ∃ t, step s = .next t ∧ OneFurther s t := by
  obtain ⟨-, -, hp | hp | ⟨hp, -⟩, -, -⟩ := (legal_busy_iff hf).1 hl
  · exact ⟨_, step_microOp hl hf hq hp rfl rfl, oneFurther_doSub hl hf _ hp⟩
  · exact ⟨_, step_microOp hl hf hq hp rfl rfl, oneFurther_doShr hl hf _ hp⟩
  · exact ⟨_, step_microOp hl hf hq hp rfl rfl, oneFurther_doMix hl hf _ hp⟩

end Busy

theorem headQuiet_of_quiet {s : State} (h : ∀ a ∈ s.host, quiet a = true) : headQuiet s = true := by
  unfold headQuiet
  split
  next => rfl
  next a rest hh => exact h a (hh ▸ List.mem_cons_self)

/-- With `n + 1` micro-steps left, `n + 1` steps lead to `DONE`, through states in `BUSY`. -/
theorem run_ends {n : Nat} {s : State} (hl : legal s = true) (hf : s.fsm = .busy)
    (hq : ∀ h ∈ s.host, quiet h = true) (hn : microStepsDone s + (n + 1) = 29) :
    (∃ t, steps (n + 1) s = .next t ∧ t.fsm = .done ∧ t.out.length = 10) ∧
      ∀ k, k < n + 1 → ∃ u, steps k s = .next u ∧ u.fsm = .busy := by
  induction n generalizing s with
  | zero =>
    obtain ⟨t, ht, table, ⟨hft, count⟩ | ⟨hft, -⟩⟩ := exists_oneFurther hl hf (headQuiet_of_quiet hq)
    · have := microStepsDone_lt table hft
      omega
    · obtain ⟨-, -, -, -, hlen⟩ := (legal_done_iff hft).1 table
      refine ⟨⟨t, steps_succ ht 0, hft, hlen⟩, fun k hk => ?_⟩
      obtain rfl : k = 0 := by omega
      exact ⟨s, rfl, hf⟩
  | succ n ih =>
    obtain ⟨t, ht, table, ⟨hft, count⟩ | ⟨-, last⟩⟩ := exists_oneFurther hl hf (headQuiet_of_quiet hq)
    · have hqt : ∀ h ∈ t.host, quiet h = true := by
        rw [(step_host_gfOut ht).1, pending_busy hl hf]
        exact fun h hh => hq h (List.mem_of_mem_tail hh)
      obtain ⟨ends, before⟩ := ih table hft hqt (by omega)
      refine ⟨by rwa [steps_succ ht], fun k hk => ?_⟩
      cases k with
      | zero => exact ⟨s, rfl, hf⟩
      | succ k =>
        rw [steps_succ ht]
        exact before k (Nat.lt_of_succ_lt_succ hk)
    · omega

/-- Settles O48: each step of a run is one micro-step, and the 29th leads to `DONE`. -/
theorem everyRunEnds : Obligations.EveryRunEnds := by
  intro s hl hf hq
  have hlt := microStepsDone_lt hl hf
  obtain ⟨n, hn⟩ : ∃ n, 29 - microStepsDone s = n + 1 := ⟨28 - microStepsDone s, by omega⟩
  rw [hn]
  exact ⟨hlt, run_ends hl hf hq (by omega)⟩

end Sys2Proof.Machine
end

section
/-! PROOF. spec/60_exceptions.md: which commands raise `LENGTH` (R92), what a reserved word raises (R94), and what
fault entry writes (R97, R98). -/

namespace Sys2Proof.Machine

/-! ## What enters `FAULT` -/

section Loading
variable {s : State} (hl : legal s = true) (hf : s.fsm = .load)
include hl hf

/-- `LDB` raises at the 17th byte only: by R22 `ICNT` is no more than 16. -/
theorem loadByte_fsm_eq_fault_iff (d : Byte) : (loadByte d s).fsm = .fault ↔ s.icnt.toNat = 16 := by
  obtain ⟨hicnt, -⟩ := (legal_load_iff hf).1 hl
  obtain ⟨hlt, h⟩ | ⟨hge, h⟩ := loadByte_cases d s
  · simp [h, hf, hlt.ne]
  · simp [h, Nat.le_antisymm hicnt hge]

/-- `RUN` raises with fewer than sixteen bytes only. -/
theorem startRun_fsm_eq_fault_iff : (startRun s).fsm = .fault ↔ s.icnt.toNat < 16 := by
  obtain ⟨hicnt, -⟩ := (legal_load_iff hf).1 hl
  obtain ⟨h16, h⟩ | ⟨hne, h⟩ := startRun_cases s
  · simp [h, h16]
  · simp [h, Nat.lt_of_le_of_ne hicnt fun he => hne (BitVec.eq_of_toNat_eq he)]

end Loading

/-! A micro-op stays in `BUSY` or ends the run. -/

section Busy
variable {s : State} (hf : s.fsm = .busy)
include hf

theorem doSub_fsm_ne_fault : (doSub s).fsm ≠ .fault := by
  simp [doSub, hf]

theorem roundEnd_fsm_ne_fault : (roundEnd s).fsm ≠ .fault := by
  obtain ⟨-, h⟩ | ⟨-, h⟩ := roundEnd_cases s <;> simp [h, hf]

theorem doShr_fsm_ne_fault : (doShr s).fsm ≠ .fault := by
  obtain ⟨-, h⟩ | ⟨-, h⟩ := doShr_cases s <;> simp [h, hf]

theorem doMix_fsm_ne_fault : (doMix s).fsm ≠ .fault :=
  roundEnd_fsm_ne_fault (s := { s with st := mixLanes s.params s.st }) hf

end Busy

/-- Only a host command can raise a fault. -/
theorem exec_fsm_ne_fault {i : Instr} {s t : State} (hldb : ∀ d, i ≠ .ldb d) (hrun : i ≠ .run)
    (h : exec i s = .next t) (hf : s.fsm ≠ .fault) : t.fsm ≠ .fault := by
  cases i with
  | ldb d => exact absurd rfl (hldb d)
  | run => exact absurd rfl hrun
  | sub => obtain ⟨-, busy, -, rfl⟩ := microStep_eq_next_iff.1 h; exact doSub_fsm_ne_fault busy
  | shr => obtain ⟨-, busy, -, rfl⟩ := microStep_eq_next_iff.1 h; exact doShr_fsm_ne_fault busy
  | mix => obtain ⟨-, busy, -, rfl⟩ := microStep_eq_next_iff.1 h; exact doMix_fsm_ne_fault busy
  | gfmul1 | gfmul2 | gfmul3 => obtain ⟨-, rfl⟩ := observeProduct_eq_next_iff.1 h; exact hf

/-- Settles O23: the two commands raise `LENGTH` by `ICNT`, and no other instruction enters `FAULT`. -/
theorem lengthRaisedExactly : Obligations.LengthRaisedExactly := by
  intro i s t h hs
  cases i with
  | ldb d =>
    obtain ⟨hl, hf, rfl⟩ := accept_eq_next_iff.1 h
    have raises := loadByte_fsm_eq_fault_iff hl hf d
    exact ⟨raises.trans (by simp [hf]), fun ht => by rw [loadByte_of_full (raises.1 ht), raise_err]⟩
  | run =>
    obtain ⟨hl, hf, rfl⟩ := accept_eq_next_iff.1 h
    have raises := startRun_fsm_eq_fault_iff hl hf
    exact ⟨raises.trans (by simp [hf]), fun ht => by rw [startRun_of_lt (raises.1 ht), raise_err]⟩
  | sub | shr | mix | gfmul1 | gfmul2 | gfmul3 =>
    have ht := exec_fsm_ne_fault (by simp) (by simp) h hs
    exact ⟨iff_of_false ht (by simp), fun hf => absurd hf ht⟩

/-! ## Steps outside `LOAD` raise nothing (R96) -/

/-- Such a step is a reset, which clears the cause, or a micro-step, which keeps it. -/
theorem step_raises_nothing {s t : State} (h : step s = .next t) (hs : s.fsm ≠ .load) :
    t.fsm ≠ .fault ∧ (t.err = s.err ∨ t.err = .none) := by
  cases step_cases h with
  | reset _ _ _ ht => rw [ht]; exact ⟨Fsm.noConfusion, .inr rfl⟩
  | ldb _ _ _ _ hf | run _ _ _ hf | reserved _ _ _ hf => exact absurd hf hs
  | sub _ _ hf _ _ _ ht => rw [ht]; exact ⟨doSub_fsm_ne_fault hf, .inl (doSub_keeps _).err⟩
  | shr _ _ hf _ _ _ ht => rw [ht]; exact ⟨doShr_fsm_ne_fault hf, .inl (doShr_keeps _).err⟩
  | mix _ _ hf _ _ _ ht => rw [ht]; exact ⟨doMix_fsm_ne_fault hf, .inl (doMix_keeps _).err⟩

/-- A reserved word at the next edge in `LOAD` is accepted and raises `ILLCMD` (R94). -/
theorem step_reserved {s : State} {w : CmdWord} {rest : List HostInput} (hl : legal s = true)
    (hf : s.fsm = .load) (hh : s.host = .drive false (some w) :: rest) (hw : 0x100 < w.toNat) :
    step s = .next (raise .illcmd (newPeriod rest s)) := by
  have hp := pending_append (before := []) hh (by simp) (nothingDue_word hl hf)
  exact (step_of_no_instr (fetch_command hl hf hp) (decodeCommand_reserved hw)).trans (accept_load hl hf)

/-- Settles O24: in `LOAD` the word is accepted; elsewhere the step raises nothing, and in `BUSY` the cause is
`NONE` before it (R22), so a reset keeps it as well. -/
theorem reservedWordRaisesIllcmd : Obligations.ReservedWordRaisesIllcmd := by
  intro s w rest hh hw
  refine ⟨fun hl hf => step_reserved hl hf hh hw, fun hs t h => ?_⟩
  obtain ⟨ht, herr⟩ := step_raises_nothing h hs
  refine ⟨ht, herr, fun hf hl => ?_⟩
  obtain ⟨-, -, -, noCause, -⟩ := (legal_busy_iff hf).1 hl
  exact herr.elim id fun h0 => h0.trans noCause.symm

/-! ## Faults are precise (R98) -/

theorem toNat_le_of_decodeCommand_ok {w : CmdWord} {i : Instr} (h : decodeCommand w = .ok i) :
    w.toNat ≤ 0x100 :=
  not_lt.1 fun hw => by cases (decodeCommand_reserved hw).symm.trans h

theorem lt_toNat_of_decodeCommand_error {w : CmdWord} {e : DecodeError} (h : decodeCommand w = .error e) :
    0x100 < w.toNat := by
  obtain ⟨d, rfl⟩ | rfl | hw := commandWord_cases w
  · cases (decodeCommand_ldb d).symm.trans h
  · cases decodeCommand_run.symm.trans h
  · exact hw

/-- The cause a command word can raise: `LENGTH` for `LDB` and `RUN`, `ILLCMD` for a reserved word (R96). -/
def causeOf (w : CmdWord) : Err := if w.toNat ≤ 0x100 then .length else .illcmd

/-- A step into `FAULT` is an accepted command that raises its cause and does nothing else. -/
theorem step_into_fault {s t : State} (h : step s = .next t) (ht : t.fsm = .fault) :
    legal s = true ∧ s.fsm = .load ∧ ∃ w rest, pending s = .drive false (some w) :: rest ∧
      t = raise (causeOf w) (newPeriod rest s) := by
  have hm : s.fsm = .load := not_not.1 fun hm => (step_raises_nothing h hm).1 ht
  cases step_cases h with
  | reset _ _ _ he => rw [he] at ht; cases ht
  | ldb w d rest hl hf hh hd he =>
    refine ⟨hl, hf, w, rest, hh, ?_⟩
    rw [he] at ht ⊢
    rw [causeOf, if_pos (toNat_le_of_decodeCommand_ok hd),
      loadByte_of_full ((loadByte_fsm_eq_fault_iff (s := newPeriod rest s) hl hf d).1 ht)]
  | run w rest hl hf hh hd he =>
    refine ⟨hl, hf, w, rest, hh, ?_⟩
    rw [he] at ht ⊢
    rw [causeOf, if_pos (toNat_le_of_decodeCommand_ok hd),
      startRun_of_lt ((startRun_fsm_eq_fault_iff (s := newPeriod rest s) hl hf).1 ht)]
  | reserved w rest hl hf hh hd he =>
    refine ⟨hl, hf, w, rest, hh, ?_⟩
    rw [he, causeOf, if_neg (lt_toNat_of_decodeCommand_error hd).not_ge]
  | sub _ _ hf | shr _ _ hf | mix _ _ hf => cases hm.symm.trans hf

/-- Settles O38: in `LOAD` nothing has been emitted (R22), and the step is the fault entry of the word accepted. -/
theorem faultsArePrecise : Obligations.FaultsArePrecise := by
  intro s t h _ ht
  obtain ⟨hl, hf, w, rest, hh, rfl⟩ := step_into_fault h ht
  obtain ⟨-, -, -, -, hout⟩ := (legal_load_iff hf).1 hl
  obtain ⟨before, hidle, hsplit, -⟩ := command_step hl hf hh h
  exact ⟨hf, hout, before, w, rest, hsplit, hidle, rfl, rfl⟩

end Sys2Proof.Machine
end

section
/-! PROOF. spec/70_reset_and_hazards.md: the reset at the next edge (R105, R106). -/

namespace Sys2Proof.Machine

/-- Settles O35: no edge stands before the reset, so it is the first pending and the step takes it. -/
theorem resetFromAnyState : Obligations.ResetFromAnyState := fun _ _ _ hh =>
  step_reset (pending_append_reset (before := []) hh)

end Sys2Proof.Machine
end
